-- ==== Sys2Proof/Word.lean ====
section
/-! DEFINITION. The widths of the unit's values (spec/00_scope.md R7, R8; 30_encoding.md R49, R50). -/

namespace Sys2Proof

/-- A byte: register contents, CRC data and register addresses are bytes (R8, `REG_ADDR_WIDTH` of R6). -/
abbrev Byte := BitVec 8

/-- The CRC register's width, `CRC_WIDTH` of R6. -/
abbrev CrcWord := BitVec 16

/-- A command word (R49). -/
abbrev CmdWord := BitVec 32

end Sys2Proof
end

