-- ==== Sys2Proof/Config.lean ====
section
/-! DEFINITION. The parameters of the block (spec/00_scope.md R6), and the free values: what the device answers on
the register bus (R11, 41_regaccess.md R81), `DEV_ADDR` and `SETTLE_DELAY`. -/

namespace Sys2Proof

/-- Why a bus transaction failed (30_encoding.md R62, 41_regaccess.md R81). -/
inductive BusErrorKind where
  | absent
  | nack
  | timeout
  | other
deriving DecidableEq, Repr, Inhabited

/-- What the device answers to one transaction. A read of `n ≤ 5` bytes that is answered `ok bytes` returns the first
`n` of the five, so every sequence of `n` bytes is a possible answer and every answer has length `n` (R81).
A write that is answered `ok bytes` succeeds, whatever the bytes. DESIGN CHOICE: log entry 5. -/
inductive BusAnswer where
  | ok (bytes : Vector Byte 5)
  | err (kind : BusErrorKind)
deriving DecidableEq, Repr, Inhabited

namespace Config

/-- `CRC_POLY` of R6, the 16-bit form of x^16 + x^15 + x^2 + 1 (90_conflicts.md C1). -/
def crcPoly : CrcWord := 0x8005

/-- `CRC_SEED` of R6. -/
def crcSeed : CrcWord := 0xFFFF

/-- `CRC_XOROUT` of R6: no output XOR. -/
def crcXorOut : CrcWord := 0x0000

/-- `CRC_REFIN` of R6: input bytes are not reflected. -/
def crcRefIn : Bool := false

/-- `CRC_REFOUT` of R6: the result is not reflected. -/
def crcRefOut : Bool := false

/-- `MAX_WIDTH` of R6: legal register widths are 1 to 5 bytes. -/
def maxWidth : Nat := 5

/-- `DEV_ADDR` of R6, OPEN (90_conflicts.md C2, 92_eei_decisions.md D19): the device's 7-bit address on the register
bus, fixed for the unit (R111). It has no value in the model: every claim holds for all of them. Log entry 8. -/
opaque devAddr : BitVec 7

/-- `SETTLE_DELAY` of R6, OPEN (92_eei_decisions.md D25), in a unit of the host's: a duty of the host that the unit
does not read (70_reset_and_hazards.md R115). Log entry 9. -/
opaque settleDelay : Nat

/-- The device's answer to the transaction that draws number `k`, where State lists no answer for it: a draw under no
law (00_scope.md R11, 10_state.md R23, 41_regaccess.md R81). Log entry 6. -/
opaque freeAnswer : Nat → BusAnswer

end Config

end Sys2Proof
end

