-- ==== Sys2Proof/Machine/CrcFunction.lean ====
section
/-! DEFINITION. The CRC function: the byte step, its bit-serial and parallel forms, `compute`, the frame trailer
(spec/40_crc.md R66 to R68, R72, R78), and the parametric CRC that R79's catalogue entry is a case of. -/

namespace Sys2Proof.Machine

/-- One turn of R66's loop: shift left, and subtract the polynomial if bit 15 was set. -/
def crcShift (t : CrcWord) : CrcWord :=
  if t.getLsbD 15 then (t <<< 1) ^^^ Config.crcPoly else t <<< 1

/-- `k` turns of the loop. -/
def crcShifts : Nat → CrcWord → CrcWord
  | 0, t => t
  | k + 1, t => crcShifts k (crcShift t)

/-- `crc_step(c, d)` of R66: the byte enters at the top, then eight turns. -/
def crcStep (c : CrcWord) (d : Byte) : CrcWord :=
  crcShifts 8 (c ^^^ (d.setWidth 16 <<< 8))

/-- One single-bit step of R67. -/
def crcBit (c : CrcWord) (b : Bool) : CrcWord :=
  (c <<< 1) ^^^ (if c.getLsbD 15 ^^ b then Config.crcPoly else 0x0000)

/-- The bits of a byte from bit 7 down to bit 0. -/
def bitsMsbFirst (d : Byte) : List Bool :=
  [d.getLsbD 7, d.getLsbD 6, d.getLsbD 5, d.getLsbD 4, d.getLsbD 3, d.getLsbD 2, d.getLsbD 1, d.getLsbD 0]

/-- The byte step as eight single-bit steps, bit 7 first (R67). -/
def crcStepSerial (c : CrcWord) (d : Byte) : CrcWord := (bitsMsbFirst d).foldl crcBit c

/-- `compute(s)` of R72: the seed, then one byte step for each byte in order. -/
def compute (bytes : List Byte) : CrcWord := bytes.foldl crcStep Config.crcSeed

/-- A CRC value as it crosses every interface, low byte first (20_memory.md R36). -/
def crcBytes (c : CrcWord) : List Byte := [c.extractLsb' 0 8, c.extractLsb' 8 8]

/-- The 16-bit value of two bytes, low byte first (20_memory.md R34, R71). -/
def crcOfBytes (lo hi : Byte) : CrcWord := lo.setWidth 16 ||| (hi.setWidth 16 <<< 8)

/-- A frame with its trailer: the bytes as sent, then their CRC, low byte first (R78). -/
def withTrailer (frame : List Byte) : List Byte := frame ++ crcBytes (compute frame)

/-- The parallel form of R68: bit `i` of `crc_step(c, d)`, where `e[k] = c[8+k] ^ d[k]`. -/
def crcStepParallelBit (c : CrcWord) (d : Byte) (i : Nat) : Bool :=
  let e := fun k => c.getLsbD (8 + k) ^^ d.getLsbD k
  match i with
  | 0 => e 0 ^^ e 1 ^^ e 2 ^^ e 3 ^^ e 4 ^^ e 5 ^^ e 6 ^^ e 7
  | 1 => e 1 ^^ e 2 ^^ e 3 ^^ e 4 ^^ e 5 ^^ e 6 ^^ e 7
  | 2 => e 0 ^^ e 1
  | 3 => e 1 ^^ e 2
  | 4 => e 2 ^^ e 3
  | 5 => e 3 ^^ e 4
  | 6 => e 4 ^^ e 5
  | 7 => e 5 ^^ e 6
  | 8 => c.getLsbD 0 ^^ e 6 ^^ e 7
  | 9 => c.getLsbD 1 ^^ e 7
  | 10 => c.getLsbD 2
  | 11 => c.getLsbD 3
  | 12 => c.getLsbD 4
  | 13 => c.getLsbD 5
  | 14 => c.getLsbD 6
  | 15 => c.getLsbD 7 ^^ e 0 ^^ e 1 ^^ e 2 ^^ e 3 ^^ e 4 ^^ e 5 ^^ e 6 ^^ e 7
  | _ => false

/-- A catalogued 16-bit CRC over the parameters poly, init, refin, refout, xorout (R79): bit by bit, each byte from its
bit 7 or, reflected, from its bit 0; the register reflected and XORed at the end. -/
def catalogueCrc (poly init : CrcWord) (refIn refOut : Bool) (xorOut : CrcWord) (bytes : List Byte) : CrcWord :=
  let bits := bytes.flatMap fun d => if refIn then (bitsMsbFirst d).reverse else bitsMsbFirst d
  let reg : CrcWord := bits.foldl (fun (c : CrcWord) (b : Bool) => (c <<< 1) ^^^ (if c.getLsbD 15 ^^ b then poly else 0)) init
  (if refOut then reg.reverse else reg) ^^^ xorOut

end Sys2Proof.Machine
end

