-- ==== Sys2Proof/Syntax.lean ====
section
/-! DEFINITION. Commands as they cross the command port, and the six instructions they stand for
(spec/30_encoding.md R49, R53; opcode_table.json). -/

namespace Sys2Proof

/-- A command: a 32-bit word and its operand bytes in bus order (R49). -/
structure Command where
  word : CmdWord
  ops : List Byte
deriving DecidableEq, Repr

/-- The six commands with their assembled operands (R52, R53, R63). -/
inductive Instr where
  /-- `CRC_INIT` (40_crc.md R69). -/
  | crcInit
  /-- `CRC_UPDATE d8` (40_crc.md R70). -/
  | crcUpdate (d8 : Byte)
  /-- `CRC_READ` (40_crc.md R71). -/
  | crcRead
  /-- `REG_READ n, ra` (41_regaccess.md R83). -/
  | regRead (n : Nat) (ra : Byte)
  /-- `REG_WRITE n, wa, [data]` (41_regaccess.md R84). -/
  | regWrite (n : Nat) (wa : Byte) (data : List Byte)
  /-- `REG_RMW n, ra, wa, [mask], [value]` (41_regaccess.md R85). -/
  | regRmw (n : Nat) (ra wa : Byte) (mask value : List Byte)
deriving DecidableEq, Repr

end Sys2Proof
end

