-- ==== Sys2Proof/Machine/Operands.lean ====
section
/-! DEFINITION. The fields of a command word and the operands assembled from them and from the operand bytes
(spec/30_encoding.md R50, R52). Nothing is sign-extended, scaled or shifted. -/

namespace Sys2Proof.Machine

/-- `OP = w[31:28]`. -/
def opField (w : CmdWord) : BitVec 4 := w.extractLsb' 28 4

/-- `N = w[27:24]`, an unsigned byte count. -/
def widthField (w : CmdWord) : Nat := (w.extractLsb' 24 4).toNat

/-- `RA = w[23:16]`. -/
def readAddrField (w : CmdWord) : Byte := w.extractLsb' 16 8

/-- `WA = w[15:8]`. -/
def writeAddrField (w : CmdWord) : Byte := w.extractLsb' 8 8

/-- `D8 = w[7:0]`. -/
def dataField (w : CmdWord) : Byte := w.extractLsb' 0 8

/-- The word with the five fields of R50. -/
def packWord (op n : BitVec 4) (ra wa d8 : Byte) : CmdWord :=
  (op.setWidth 32 <<< 28) ||| (n.setWidth 32 <<< 24) ||| (ra.setWidth 32 <<< 16) ||| (wa.setWidth 32 <<< 8)
    ||| d8.setWidth 32

/-- `mask[i] = ops[i]` for `0 <= i < n` (format `FM`). -/
def maskOperand (n : Nat) (ops : List Byte) : List Byte := ops.take n

/-- `value[i] = ops[n + i]` for `0 <= i < n` (format `FM`). -/
def valueOperand (n : Nat) (ops : List Byte) : List Byte := (ops.drop n).take n

/-- Byte `i` (0 the lowest) of a number, for laying out table words. -/
def byteOfNat (v i : Nat) : Byte := BitVec.ofNat 8 (v >>> (8 * i))

/-- A command word as four bytes, most significant first (R49). -/
def wordBytes (w : CmdWord) : List Byte :=
  [w.extractLsb' 24 8, w.extractLsb' 16 8, w.extractLsb' 8 8, w.extractLsb' 0 8]

/-- The command word of four bytes, most significant first (R49). -/
def wordOfBytes (b3 b2 b1 b0 : Byte) : CmdWord :=
  (b3.setWidth 32 <<< 24) ||| (b2.setWidth 32 <<< 16) ||| (b1.setWidth 32 <<< 8) ||| b0.setWidth 32

end Sys2Proof.Machine
end

