-- ==== Sys2Proof/WellFormed.lean ====
section
/-! DEFINITION. Which instructions have an encoding: a width of 1 to `MAX_WIDTH` bytes and byte lists of that length
(spec/30_encoding.md R58, R63). -/

namespace Sys2Proof

/-- A legal register width, 1 to 5 bytes (00_scope.md R6, 20_memory.md R41). -/
abbrev LegalWidth (n : Nat) : Prop := 1 ≤ n ∧ n ≤ Config.maxWidth

/-- The assembler's check (R63): it refuses "a byte list whose length is not `n`" and "`n` outside `1..5`". -/
def Instr.wellFormed : Instr → Bool
  | .crcInit => true
  | .crcUpdate _ => true
  | .crcRead => true
  | .regRead n _ => decide (LegalWidth n)
  | .regWrite n _ data => decide (LegalWidth n ∧ data.length = n)
  | .regRmw n _ _ mask value => decide (LegalWidth n ∧ mask.length = n ∧ value.length = n)

/-- The instruction has an encoding. -/
abbrev Instr.WellFormed (i : Instr) : Prop := i.wellFormed = true

end Sys2Proof
end

