-- ==== Sys2Proof/Decode.lean ====
section
/-! DEFINITION. Decoding a command, total and rejecting by name, and encoding an instruction
(spec/30_encoding.md R49 to R60). -/

namespace Sys2Proof

open Machine

/-- The operations of R53, without operands. -/
inductive Opcode where
  | crcInit
  | crcUpdate
  | crcRead
  | regRead
  | regWrite
  | regRmw
deriving DecidableEq, Repr

/-- Why a command is refused: the failing check of R59, in its order. -/
inductive DecodeError where
  /-- `OP` is `0x0` or `0x7` to `0xF` (R56). -/
  | reservedOp
  /-- A must-be-zero field of the format is not zero (R55). -/
  | nonzeroField
  /-- A `REG_*` command whose `N` is outside `1..5` (R58). -/
  | badWidth
  /-- The operand sequence is not exactly `L` bytes long (R58). -/
  | badOperandLength
deriving DecidableEq, Repr

/-- The opcode map of R53, read from the field `OP`. -/
def Opcode.ofField (op : BitVec 4) : Option Opcode :=
  match op.toNat with
  | 1 => some .crcInit
  | 2 => some .crcUpdate
  | 3 => some .crcRead
  | 4 => some .regRead
  | 5 => some .regWrite
  | 6 => some .regRmw
  | _ => none

/-- The field `OP` of an operation (R53). -/
def Opcode.field : Opcode → BitVec 4
  | .crcInit => 0x1
  | .crcUpdate => 0x2
  | .crcRead => 0x3
  | .regRead => 0x4
  | .regWrite => 0x5
  | .regRmw => 0x6

/-- The column `match` of R54. -/
def Opcode.pattern : Opcode → CmdWord
  | .crcInit => 0x10000000
  | .crcUpdate => 0x20000000
  | .crcRead => 0x30000000
  | .regRead => 0x40000000
  | .regWrite => 0x50000000
  | .regRmw => 0x60000000

/-- The column `mask` of R54. -/
def Opcode.mask : Opcode → CmdWord
  | .crcInit => 0xFFFFFFFF
  | .crcUpdate => 0xFFFFFF00
  | .crcRead => 0xFFFFFFFF
  | .regRead => 0xF000FFFF
  | .regWrite => 0xF0FF00FF
  | .regRmw => 0xF00000FF

/-- The `REG_*` operations, whose `N` is a register width (R50). -/
def Opcode.hasWidth : Opcode → Bool
  | .crcInit => false
  | .crcUpdate => false
  | .crcRead => false
  | .regRead => true
  | .regWrite => true
  | .regRmw => true

/-- `L`, the number of operand bytes, from `OP` and `N` (R51, R58). -/
def Opcode.operandLength (o : Opcode) (n : Nat) : Nat :=
  match o with
  | .crcInit => 0
  | .crcUpdate => 0
  | .crcRead => 0
  | .regRead => 0
  | .regWrite => n
  | .regRmw => 2 * n

/-- The operands of a command that has passed the checks (R52). -/
def Opcode.assemble (o : Opcode) (c : Command) : Instr :=
  match o with
  | .crcInit => .crcInit
  | .crcUpdate => .crcUpdate (dataField c.word)
  | .crcRead => .crcRead
  | .regRead => .regRead (widthField c.word) (readAddrField c.word)
  | .regWrite => .regWrite (widthField c.word) (writeAddrField c.word) c.ops
  | .regRmw =>
    .regRmw (widthField c.word) (readAddrField c.word) (writeAddrField c.word)
      (maskOperand (widthField c.word) c.ops) (valueOperand (widthField c.word) c.ops)

/-- The checks of R59 after the first, for the operation the field `OP` names. -/
def decodeAs (o : Opcode) (c : Command) : Except DecodeError Instr :=
  if c.word &&& o.mask ≠ o.pattern then .error .nonzeroField
  else if o.hasWidth = true ∧ ¬ LegalWidth (widthField c.word) then .error .badWidth
  else if c.ops.length ≠ o.operandLength (widthField c.word) then .error .badOperandLength
  else .ok (o.assemble c)

/-- `decode(w, ops)` of R59: the checks in the order written there; the first that fails decides. -/
def decode (c : Command) : Except DecodeError Instr :=
  match Opcode.ofField (opField c.word) with
  | none => .error .reservedOp
  | some o => decodeAs o c

/-! ## Encoding -/

/-- The command of an instruction: the fields its format reads, zero elsewhere (R50, R51), and its operand bytes, the
mask before the value (R52). -/
def encode (i : Instr) : Command :=
  match i with
  | .crcInit => ⟨packWord 0x1 0 0 0 0, []⟩
  | .crcUpdate d8 => ⟨packWord 0x2 0 0 0 d8, []⟩
  | .crcRead => ⟨packWord 0x3 0 0 0 0, []⟩
  | .regRead n ra => ⟨packWord 0x4 (BitVec.ofNat 4 n) ra 0 0, []⟩
  | .regWrite n wa data => ⟨packWord 0x5 (BitVec.ofNat 4 n) 0 wa 0, data⟩
  | .regRmw n ra wa mask value => ⟨packWord 0x6 (BitVec.ofNat 4 n) ra wa 0, mask ++ value⟩

/-! ## The serialised form -/

/-- A serialised command: the word, most significant byte first, then the operand bytes (R49). -/
def Command.bytes (c : Command) : List Byte := wordBytes c.word ++ c.ops

/-- The command of a byte sequence that holds exactly one; fewer than four bytes hold no command word
(DESIGN CHOICE, log entry 17). -/
def Command.ofBytes : List Byte → Option Command
  | b3 :: b2 :: b1 :: b0 :: ops => some ⟨wordOfBytes b3 b2 b1 b0, ops⟩
  | _ => none

/-- `L` as a decoder reads it from the word alone (R51, R58). For a reserved `OP` the spec gives no `L`: that no operand
byte follows such a word is the model's choice (DESIGN CHOICE, log entry 19). -/
def wordOperandLength (w : CmdWord) : Nat :=
  match Opcode.ofField (opField w) with
  | none => 0
  | some o => o.operandLength (widthField w)

/-- The next command of a byte stream and what follows it: "a decoder reads the word and knows how many operand bytes
follow" (R58). -/
def Command.next (bs : List Byte) : Option (Command × List Byte) :=
  match Command.ofBytes bs with
  | none => none
  | some c =>
    let l := wordOperandLength c.word
    if c.ops.length < l then none else some (⟨c.word, c.ops.take l⟩, c.ops.drop l)

/-! ## Table words -/

/-- The command word in a number whose bit 0 is the word's least significant bit; bits from `nbits` up are zero. -/
def tableWord (nbits w : Nat) : CmdWord := BitVec.ofNat 32 (w % 2 ^ nbits)

/-- The command of a table word, as the hardware stores it: the four bytes of the word, most significant first, then
the `L` operand bytes the word announces (R49, R58), taken from the bits above the word and so zero where `nbits` ends
at the word. Log entry 15. -/
def tableBytes (nbits w : Nat) : List Byte :=
  wordBytes (tableWord nbits w)
    ++ (List.range (wordOperandLength (tableWord nbits w))).map fun i => byteOfNat (w % 2 ^ nbits) (4 + i)

/-- The command that `tableBytes` lays out. -/
def tableCommand (nbits w : Nat) : Command :=
  match Command.ofBytes (tableBytes nbits w) with
  | some c => c
  | none => ⟨tableWord nbits w, []⟩

/-- What the decoder reads from a table word. -/
def decodeTableWord (nbits w : Nat) : Option Instr :=
  match decode (tableCommand nbits w) with
  | .ok i => some i
  | .error _ => none

end Sys2Proof
end

