-- ==== Sys2Proof/Machine/State.lean ====
section
/-! DEFINITION. What the unit holds and what stands around it as data (spec/10_state.md; 30_encoding.md R61, R62;
41_regaccess.md R81; 70_reset_and_hazards.md R109, R110), and the state after reset. -/

namespace Sys2Proof.Machine

/-- In which transaction of a command a bus error arose (R62). -/
inductive Phase where
  | read
  | write
deriving DecidableEq, Repr

/-- The status of a response. A bus error carries its kind and phase, which no other status has (R61, R96). -/
inductive Status where
  | ok
  | busError (kind : BusErrorKind) (phase : Phase)
  | invalidConfiguration
  | illegalCommand
deriving DecidableEq, Repr

/-- The one response a command gets (R61). -/
structure Response where
  status : Status
  data : List Byte
deriving DecidableEq, Repr

/-- What `BusRead(a, n)` returns (R10, R81). -/
inductive ReadAnswer where
  | ok (bytes : List Byte)
  | err (kind : BusErrorKind)
deriving DecidableEq, Repr

/-- What `BusWrite(a, s)` returns (R10, R81). -/
inductive WriteAnswer where
  | ok
  | err (kind : BusErrorKind)
deriving DecidableEq, Repr

/-- An event of the bus history: `Rd(a, n, answer)` and `Wr(a, s, answer)` of R81, and a transaction inside which a
reset fell (R110), which has no answer (DESIGN CHOICE, log entry 4). -/
inductive BusEvent where
  | rd (addr : Byte) (n : Nat) (answer : ReadAnswer)
  | wr (addr : Byte) (bytes : List Byte) (answer : WriteAnswer)
  | rdCut (addr : Byte) (n : Nat)
  | wrCut (addr : Byte) (bytes : List Byte)
deriving DecidableEq, Repr

/-- The accessor phase `acc` (R19): the write still owed by a `REG_RMW` whose read has completed. -/
inductive Acc where
  | idle
  | rmwWrite (wa : Byte) (n : Nat) (old new : List Byte)
deriving DecidableEq, Repr

/-- The reset line during one step of the unit (R109, R110; DESIGN CHOICE, log entry 3). -/
inductive ResetSignal where
  /-- No reset: the step is the unit's own. -/
  | quiet
  /-- Reset falls before the step: it takes the step's place. -/
  | before
  /-- Reset falls inside the step: what the step began is abandoned. -/
  | during
deriving DecidableEq, Repr

/-- The unit's two items of architectural state (R12), its bus history (R81), its responses (R61), and the three
inputs from its environment as plain data: the host's commands and reset line, the device's answers. -/
structure State where
  /-- The CRC register (R13). -/
  crc : CrcWord
  /-- The accessor phase (R19). -/
  acc : Acc
  /-- The commands the host has still to issue, the next one first; the unit has no queue (R21). -/
  port : List Command
  /-- The reset line at the coming steps, one entry a step; quiet after the last. -/
  resetLine : List ResetSignal
  /-- The device's answers to the coming transactions; after the last, free answers. -/
  answers : List BusAnswer
  /-- The number of the next free answer: the model's own counter. -/
  draws : Nat
  /-- Every transaction issued, oldest first (R81). -/
  history : List BusEvent
  /-- Every response given, oldest first (R61). -/
  responses : List Response
deriving DecidableEq, Repr

/-- Why the machine stops with a fault: never. The unit has no trap and every error is a response (R95), so no meaning
raises a fault and the type has no constructor. -/
inductive Fault where
deriving DecidableEq, Repr

/-- Why the model has no meaning for an instruction. -/
inductive Refusal where
  /-- Raised by an arm of `exec` whose instruction has no meaning yet: by none (safe). -/
  | notModelled (mnemonic : String)
deriving DecidableEq, Repr

/-- The unit after reset: `crc = 0xFFFF` and `acc = IDLE` (R109), waiting for its first command. The other fields are
the environment's and the model's own; their values are DESIGN CHOICE, log entries 1, 3, 5, 6 and 7. -/
def State.reset : State :=
  { crc := Config.crcSeed
    acc := .idle
    port := []
    resetLine := []
    answers := []
    draws := 0
    history := []
    responses := [] }

end Sys2Proof.Machine
end

