-- ==== Sys2Proof/Machine/Flags.lean ====
section
/-! DEFINITION. The unit has no status flags and no condition codes (spec/10_state.md R17): the outcome of a command
is reported in its response alone. Here are the codes of a response and its serialised form (30_encoding.md R62). -/

namespace Sys2Proof.Machine

/-- The code of `status` (R62). -/
def Status.code : Status → BitVec 2
  | .ok => 0
  | .busError _ _ => 1
  | .invalidConfiguration => 2
  | .illegalCommand => 3

/-- The code of a bus error's kind (R62). -/
def kindCode : BusErrorKind → BitVec 2
  | .absent => 0
  | .nack => 1
  | .timeout => 2
  | .other => 3

/-- The code of a bus error's phase (R62). -/
def Phase.code : Phase → BitVec 1
  | .read => 0
  | .write => 1

/-- `sb[3:2]`: the kind, zero unless `BUS_ERROR`. -/
def Status.kindBits : Status → BitVec 2
  | .ok => 0
  | .busError k _ => kindCode k
  | .invalidConfiguration => 0
  | .illegalCommand => 0

/-- `sb[4]`: the phase, zero unless `BUS_ERROR`. -/
def Status.phaseBit : Status → BitVec 1
  | .ok => 0
  | .busError _ p => p.code
  | .invalidConfiguration => 0
  | .illegalCommand => 0

/-- The status byte: `sb[1:0]` status, `sb[3:2]` kind, `sb[4]` phase, `sb[7:5]` zero (R62). -/
def Status.byte (st : Status) : Byte :=
  (st.phaseBit.setWidth 8 <<< 4) ||| (st.kindBits.setWidth 8 <<< 2) ||| st.code.setWidth 8

/-- A serialised response, `[sb] ++ data` (R62). -/
def Response.bytes (r : Response) : List Byte := r.status.byte :: r.data

/-- The status that reports a failed decode check (R55, R56, R58, R96). -/
def errorStatus : DecodeError → Status
  | .reservedOp => .illegalCommand
  | .nonzeroField => .illegalCommand
  | .badWidth => .invalidConfiguration
  | .badOperandLength => .invalidConfiguration

end Sys2Proof.Machine
end

