-- ==== Sys2Proof/Machine/Ops.lean ====
section
/-! DEFINITION. The named operations the commands are written with: responding, the bus primitives, the merge, the
acceptance of a command, reset (spec/00_scope.md R10; 41_regaccess.md R81, R82; 10_state.md R21;
70_reset_and_hazards.md R109, R110). -/

namespace Sys2Proof.Machine

/-- What one step of this machine answers. -/
abbrev StepResult := Host.Outcome State Fault Refusal

/-- `crc <- v` (R10). -/
def State.setCrc (s : State) (v : CrcWord) : State := { s with crc := v }

/-- `acc <- a` (R19). -/
def State.setAcc (s : State) (a : Acc) : State := { s with acc := a }

/-- `respond(status, fields)`: ends the command with its one response (R10, R61). -/
def State.respond (s : State) (st : Status) (data : List Byte) : State :=
  { s with responses := s.responses ++ [⟨st, data⟩] }

/-- Ending a command with an error: the response carries the status and, where the command's rule lists them, data
bytes; there is no trap, no vector and no saved state (R95). -/
def State.respondError (s : State) (st : Status) (data : List Byte) : State := s.respond st data

/-- An event of the bus history (R81). -/
def State.record (s : State) (e : BusEvent) : State := { s with history := s.history ++ [e] }

/-- The device's answer to the coming transaction: a draw (R11, R81). -/
def State.nextAnswer (s : State) : BusAnswer :=
  match s.answers with
  | [] => Config.freeAnswer s.draws
  | a :: _ => a

/-- The state after that answer is given. -/
def State.dropAnswer (s : State) : State :=
  match s.answers with
  | [] => { s with draws := s.draws + 1 }
  | _ :: rest => { s with answers := rest }

/-- The answer as `BusRead(a, n)` returns it: `Ok(s)` with `len(s) = n`, or `Err(k)` (R81). -/
def readAnswer (n : Nat) : BusAnswer → ReadAnswer
  | .ok bytes => .ok (bytes.toList.take n)
  | .err k => .err k

/-- The answer as `BusWrite(a, s)` returns it: `Ok` or `Err(k)` (R81). -/
def writeAnswer : BusAnswer → WriteAnswer
  | .ok _ => .ok
  | .err k => .err k

/-- The state after one read transaction `BusRead(a, n)`, answered and recorded (R81). -/
def State.busRead (s : State) (a : Byte) (n : Nat) : State :=
  s.dropAnswer.record (.rd a n (readAnswer n s.nextAnswer))

/-- The state after one write transaction `BusWrite(a, bytes)`, answered and recorded (R81). -/
def State.busWrite (s : State) (a : Byte) (bytes : List Byte) : State :=
  s.dropAnswer.record (.wr a bytes (writeAnswer s.nextAnswer))

/-- The bus address every transaction names: `DEV_ADDR` (R10, R25). -/
def BusEvent.device (_ : BusEvent) : BitVec 7 := Config.devAddr

/-- One byte of the merge: the `old` bit where the mask bit is 0, the `value` bit where it is 1 (R82). -/
def mergeByte (old mask value : Byte) : Byte := (old &&& ~~~mask) ||| (value &&& mask)

/-- `merge(old, mask, value)` of R82, byte by byte. -/
def merge : List Byte → List Byte → List Byte → List Byte
  | o :: os, m :: ms, v :: vs => mergeByte o m v :: merge os ms vs
  | _, _, _ => []

/-- The unit takes a command only when `acc = IDLE` (R21); offered while it is busy, a command changes nothing
(log entry 12). -/
def State.accept (s : State) (effect : State → State) : StepResult :=
  .next (match s.acc with
    | .idle => effect s
    | .rmwWrite _ _ _ _ => s)

/-- A command of malformed length: `INVALID_CONFIGURATION`, no state change, no bus transaction (R58). The decoder
refuses such a command before any meaning; this is what a meaning given one does (log entry 11). -/
def State.requireForm (s : State) (form : Prop) [Decidable form] (effect : State → State) : State :=
  if form then effect s else s.respondError .invalidConfiguration []

/-- The unit's reset: `crc` and `acc` (R109). What the unit has already done, and its environment, are not changed. -/
def State.applyReset (s : State) : State := { s with crc := Config.crcSeed, acc := .idle }

/-- The transaction an instruction's first step issues, as an event with no answer: what the history holds when a reset
falls inside it (R110, log entry 4). -/
def cutTransaction (i : Instr) : Option BusEvent :=
  match i with
  | .crcInit => none
  | .crcUpdate _ => none
  | .crcRead => none
  | .regRead n ra => some (.rdCut ra n)
  | .regWrite _ wa data => some (.wrCut wa data)
  | .regRmw n ra _ _ _ => some (.rdCut ra n)

/-- Record an event if there is one. -/
def State.recordCut (s : State) (e : Option BusEvent) : State :=
  match e with
  | none => s
  | some ev => s.record ev

end Sys2Proof.Machine
end

