-- ==== Sys2Proof/Machine/Crc.lean ====
section
/-! DEFINITION. The meanings of `CRC_INIT`, `CRC_UPDATE` and `CRC_READ` (spec/40_crc.md R69 to R71). -/

namespace Sys2Proof.Machine

/-- `CRC_INIT` (R69): `crc <- 0xFFFF`, response OK without data. -/
def execCrcInit (s : State) : StepResult :=
  s.accept fun s => (s.setCrc Config.crcSeed).respond .ok []

/-- `CRC_UPDATE d8` (R70): `crc <- crc_step(crc, d8)`, response OK without data. -/
def execCrcUpdate (d8 : Byte) (s : State) : StepResult :=
  s.accept fun s => (s.setCrc (crcStep s.crc d8)).respond .ok []

/-- `CRC_READ` (R71): response OK with the register, low byte first; `crc` is not changed. -/
def execCrcRead (s : State) : StepResult :=
  s.accept fun s => s.respond .ok (crcBytes s.crc)

end Sys2Proof.Machine
end

