-- ==== Sys2Proof/Machine/RegAccess.lean ====
section
/-! DEFINITION. The meanings of `REG_READ`, `REG_WRITE` and `REG_RMW` (spec/41_regaccess.md R83 to R88), the second
step of `REG_RMW` among them (R87). -/

namespace Sys2Proof.Machine

/-- `REG_READ n, ra` (R83): one read transaction; its bytes, or its error in phase `READ`. -/
def execRegRead (n : Nat) (ra : Byte) (s : State) : StepResult :=
  s.accept fun s => s.requireForm (LegalWidth n) fun s =>
    match readAnswer n s.nextAnswer with
    | .ok bytes => (s.busRead ra n).respond .ok bytes
    | .err k => (s.busRead ra n).respondError (.busError k .read) []

/-- `REG_WRITE n, wa, [data]` (R84): one write transaction; OK, or its error in phase `WRITE`. -/
def execRegWrite (n : Nat) (wa : Byte) (data : List Byte) (s : State) : StepResult :=
  s.accept fun s => s.requireForm (LegalWidth n ∧ data.length = n) fun s =>
    match writeAnswer s.nextAnswer with
    | .ok => (s.busWrite wa data).respond .ok []
    | .err k => (s.busWrite wa data).respondError (.busError k .write) []

/-- `REG_RMW n, ra, wa, [mask], [value]`, step 1 (R85, R86): the read. On success the merged bytes are owed to `wa` and
no response is given yet; on failure nothing is written (R88). -/
def execRegRmw (n : Nat) (ra wa : Byte) (mask value : List Byte) (s : State) : StepResult :=
  s.accept fun s => s.requireForm (LegalWidth n ∧ mask.length = n ∧ value.length = n) fun s =>
    match readAnswer n s.nextAnswer with
    | .ok old => (s.busRead ra n).setAcc (.rmwWrite wa n old (merge old mask value))
    | .err k => (s.busRead ra n).respondError (.busError k .read) []

/-- `REG_RMW`, step 2 (R85, R87), run in the phase `RMW_WRITE(wa, n, old, new)`: the write, then idle whatever the
answer, and the response with `old ++ new` (R92). -/
def State.rmwWriteStep (s : State) (wa : Byte) (old new : List Byte) : State :=
  match writeAnswer s.nextAnswer with
  | .ok => ((s.busWrite wa new).setAcc .idle).respond .ok (old ++ new)
  | .err k => ((s.busWrite wa new).setAcc .idle).respondError (.busError k .write) (old ++ new)

end Sys2Proof.Machine
end

