-- ==== Sys2Proof/Machine/Dispatch.lean ====
section
/-! DEFINITION. One arm per instruction. -/

namespace Sys2Proof.Machine

-- The effect of an instruction on a unit to which it is offered (spec/30_encoding.md R53).
def exec (i : Instr) (s : State) : Host.Outcome State Fault Refusal :=
  match i with
  | .crcInit => Sys2Proof.Machine.execCrcInit s
  | .crcUpdate d8 => Sys2Proof.Machine.execCrcUpdate d8 s
  | .crcRead => Sys2Proof.Machine.execCrcRead s
  | .regRead n ra => Sys2Proof.Machine.execRegRead n ra s
  | .regWrite n wa data => Sys2Proof.Machine.execRegWrite n wa data s
  | .regRmw n ra wa mask value => Sys2Proof.Machine.execRegRmw n ra wa mask value s

end Sys2Proof.Machine
end

