-- ==== Sys2Proof/Machine/Port.lean ====
section
/-! DEFINITION. The command port: which command the unit takes, what a step does with it, and what a reset inside a step
leaves (spec/10_state.md R21; 30_encoding.md R59; 41_regaccess.md R87; 70_reset_and_hazards.md R110). -/

namespace Sys2Proof.Machine

/-- What a step acts on: the write a `REG_RMW` still owes, the command the host offers, or nothing. -/
inductive Work where
  | owedWrite (wa : Byte) (old new : List Byte)
  | offered (c : Command)
  | none
deriving DecidableEq, Repr

/-- A busy unit owes its write and leaves the command with the host; an idle one takes the command offered (R21). -/
def State.work (s : State) : Work :=
  match s.acc with
  | .rmwWrite wa _ old new => .owedWrite wa old new
  | .idle =>
    match s.port with
    | [] => .none
    | c :: _ => .offered c

/-- The state once the command offered is taken from the host. -/
def State.takeCommand (s : State) : State := { s with port := s.port.tail }

/-- A command is taken and decoded; a command that fails a check has no effect but its error response (R59). -/
def State.runCommand (s : State) (c : Command) : StepResult :=
  match decode c with
  | .ok i => exec i s
  | .error e => .next (s.respondError (errorStatus e) [])

/-- One step of the unit with no reset in it. -/
def State.unitStep (s : State) : StepResult :=
  match s.work with
  | .owedWrite wa old new => .next (s.rmwWriteStep wa old new)
  | .offered c => s.takeCommand.runCommand c
  | .none => .next s

/-- A step inside which reset falls: the command in progress is abandoned without a response, and a transaction it had
begun is in the history without an answer (R110, log entry 4). -/
def State.cutStep (s : State) : State :=
  match s.work with
  | .owedWrite wa _ new => (s.record (.wrCut wa new)).applyReset
  | .offered c =>
    match decode c with
    | .ok i => (s.takeCommand.recordCut (cutTransaction i)).applyReset
    | .error _ => s.takeCommand.applyReset
  | .none => s.applyReset

/-- The reset line during the coming step. -/
def State.resetNow (s : State) : ResetSignal :=
  match s.resetLine with
  | [] => .quiet
  | r :: _ => r

/-- The state once that entry of the schedule is used. -/
def State.passReset (s : State) : State := { s with resetLine := s.resetLine.tail }

/-- The state in which the unit is idle, no reset is near, and the host offers this command next. -/
def State.offer (s : State) (c : Command) : State :=
  { s with acc := .idle, resetLine := [], port := c :: s.port }

end Sys2Proof.Machine
end

