-- ==== Sys2Proof/Machine/Step.lean ====
section
/-! DEFINITION. One step of the unit (spec/00_scope.md R5; 70_reset_and_hazards.md R109, R110, R121): a command is one
step, `REG_RMW` two; a reset takes the place of a step or falls inside one. -/

namespace Sys2Proof.Machine

/-- One step: the reset line's coming entry is used, and with no reset the unit takes its own step. -/
def step (s : State) : Host.Outcome State Fault Refusal :=
  match s.resetNow with
  | .quiet => s.passReset.unitStep
  | .before => .next s.passReset.applyReset
  | .during => .next s.passReset.cutStep

/-- The state in which the next step takes and runs the command of a table word: the unit fetches no instruction, so
the command is the one the host offers (log entry 15). -/
def State.withFetchWord (s : State) (nbits w : Nat) : State := s.offer (tableCommand nbits w)

end Sys2Proof.Machine
end

