-- ==== Sys2Proof/Machine/Pseudo.lean ====
section
/-! DEFINITION. The pseudo-commands and their expansions (spec/30_encoding.md R64). -/

namespace Sys2Proof.Machine

/-- `CRC_COMPUTE [s0, ..., s(k-1)]`: initialise, one update a byte, read. -/
def crcCompute (bytes : List Byte) : List Instr := .crcInit :: bytes.map .crcUpdate ++ [.crcRead]

/-- `REG_SET n, ra, wa, [mask]`: the mask is also the value. -/
def regSet (n : Nat) (ra wa : Byte) (mask : List Byte) : Instr := .regRmw n ra wa mask mask

/-- `REG_CLEAR n, ra, wa, [mask]`: the value is `n` zero bytes. -/
def regClear (n : Nat) (ra wa : Byte) (mask : List Byte) : Instr := .regRmw n ra wa mask (List.replicate n 0)

/-- `(((1 << fw) - 1) << lsb)[7:0]`, the mask byte of a field. -/
def fieldMaskByte (lsb fw : Nat) : Byte := BitVec.ofNat 8 ((2 ^ fw - 1) <<< lsb)

/-- `((v << lsb) & M[i])[7:0]`, the value byte of a field: a `v` wider than the field is cut to it
(log entry 13). -/
def fieldValueByte (lsb fw v : Nat) : Byte := BitVec.ofNat 8 (v <<< lsb) &&& fieldMaskByte lsb fw

/-- `n` bytes, all zero but byte `i`. -/
def oneByte (n i : Nat) (b : Byte) : List Byte := (List.range n).map fun j => if j = i then b else 0

/-- `REG_FIELD n, ra, wa, i, lsb, fw, v`: one field inside byte `i` of the register. -/
def regField (n : Nat) (ra wa : Byte) (i lsb fw v : Nat) : Instr :=
  .regRmw n ra wa (oneByte n i (fieldMaskByte lsb fw)) (oneByte n i (fieldValueByte lsb fw v))

/-- The condition on a field: `0 <= i < n`, `1 <= fw`, `lsb + fw <= 8`. -/
abbrev FieldInByte (n i lsb fw : Nat) : Prop := i < n ∧ 1 ≤ fw ∧ lsb + fw ≤ 8

end Sys2Proof.Machine
end

