-- ==== Sys2Proof/Machine/Assembler.lean ====
section
/-! DEFINITION. The assembler (spec/30_encoding.md R63, R64): the numbers of a line, what it refuses, the commands it
emits, and the text of a line. -/

namespace Sys2Proof.Machine

/-- One line of assembler text as its mnemonic and numbers, pseudo-commands included. -/
inductive AsmLine where
  | crcInit
  | crcUpdate (d8 : Nat)
  | crcRead
  | regRead (n ra : Nat)
  | regWrite (n wa : Nat) (data : List Nat)
  | regRmw (n ra wa : Nat) (mask value : List Nat)
  | crcCompute (bytes : List Nat)
  | regSet (n ra wa : Nat) (mask : List Nat)
  | regClear (n ra wa : Nat) (mask : List Nat)
  | regField (n ra wa i lsb fw v : Nat)
deriving DecidableEq, Repr

/-- A number that must fit a byte field. -/
def fitByte (v : Nat) : Option Byte := if v < 256 then some (BitVec.ofNat 8 v) else none

/-- A byte list, every number of which must fit. -/
def fitBytes : List Nat → Option (List Byte)
  | [] => some []
  | v :: vs =>
    match fitByte v, fitBytes vs with
    | some b, some bs => some (b :: bs)
    | _, _ => none

/-- "The assembler refuses a byte list whose length is not `n`, `n` outside `1..5`" (R63). -/
def checked (i : Instr) : Option (List Instr) := if i.WellFormed then some [i] else none

/-- The instructions a line stands for, or a refusal. -/
def AsmLine.instrs : AsmLine → Option (List Instr)
  | .crcInit => checked .crcInit
  | .crcUpdate d8 =>
    match fitByte d8 with
    | some d => checked (.crcUpdate d)
    | none => none
  | .crcRead => checked .crcRead
  | .regRead n ra =>
    match fitByte ra with
    | some a => checked (.regRead n a)
    | none => none
  | .regWrite n wa data =>
    match fitByte wa, fitBytes data with
    | some a, some d => checked (.regWrite n a d)
    | _, _ => none
  | .regRmw n ra wa mask value =>
    match fitByte ra, fitByte wa, fitBytes mask, fitBytes value with
    | some r, some a, some m, some v => checked (.regRmw n r a m v)
    | _, _, _, _ => none
  | .crcCompute bytes =>
    match fitBytes bytes with
    | some bs => some (Machine.crcCompute bs)
    | none => none
  | .regSet n ra wa mask =>
    match fitByte ra, fitByte wa, fitBytes mask with
    | some r, some a, some m => checked (Machine.regSet n r a m)
    | _, _, _ => none
  | .regClear n ra wa mask =>
    match fitByte ra, fitByte wa, fitBytes mask with
    | some r, some a, some m => checked (Machine.regClear n r a m)
    | _, _, _ => none
  | .regField n ra wa i lsb fw v =>
    match fitByte ra, fitByte wa with
    | some r, some a => if FieldInByte n i lsb fw then checked (Machine.regField n r a i lsb fw v) else none
    | _, _ => none

/-- The commands a line assembles to. -/
def assemble (line : AsmLine) : Option (List Command) := line.instrs.map (List.map encode)

/-! ## The text of a line (log entry 14) -/

/-- The pieces of a line. -/
inductive Token where
  | word (cs : List Char)
  | comma
  | openBracket
  | closeBracket
deriving DecidableEq, Repr

/-- A word that has ended; an empty one is no token. -/
def flushWord (w : List Char) : List Token := if w = [] then [] else [.word w]

/-- The tokens of a line; `w` is the word being read. White space separates words and `;` begins a comment. -/
def tokens (w : List Char) : List Char → List Token
  | [] => flushWord w
  | c :: cs =>
    if c = ';' then flushWord w
    else if c = ' ' ∨ c = '\t' then flushWord w ++ tokens [] cs
    else if c = ',' then flushWord w ++ .comma :: tokens [] cs
    else if c = '[' then flushWord w ++ .openBracket :: tokens [] cs
    else if c = ']' then flushWord w ++ .closeBracket :: tokens [] cs
    else tokens (w ++ [c]) cs

/-- The value of a digit in a base up to sixteen. -/
def digitValue (base : Nat) (c : Char) : Option Nat :=
  let v := if '0' ≤ c ∧ c ≤ '9' then some (c.toNat - '0'.toNat)
    else if 'a' ≤ c ∧ c ≤ 'f' then some (c.toNat - 'a'.toNat + 10)
    else if 'A' ≤ c ∧ c ≤ 'F' then some (c.toNat - 'A'.toNat + 10)
    else none
  match v with
  | some d => if d < base then some d else none
  | none => none

/-- The digits after `acc`, most significant first. -/
def digitsValue (base : Nat) (acc : Nat) : List Char → Option Nat
  | [] => some acc
  | c :: cs =>
    match digitValue base c with
    | some d => digitsValue base (acc * base + d) cs
    | none => none

/-- "numbers in decimal or `0x` hexadecimal" (R63). -/
def numberValue : List Char → Option Nat
  | [] => none
  | '0' :: 'x' :: [] => none
  | '0' :: 'x' :: cs => digitsValue 16 0 cs
  | cs => digitsValue 10 0 cs

/-- An operand of a line: a number, or a byte list in brackets. -/
inductive Operand where
  | num (v : Nat)
  | list (vs : List Nat)
deriving DecidableEq, Repr

/-- The numbers of a nonempty byte list up to its closing bracket, and what follows it. -/
def parseList : List Token → Option (List Nat × List Token)
  | .word w :: .comma :: rest =>
    match numberValue w, parseList rest with
    | some v, some (vs, after) => some (v :: vs, after)
    | _, _ => none
  | .word w :: .closeBracket :: rest =>
    match numberValue w with
    | some v => some ([v], rest)
    | none => none
  | _ => none

/-- One operand, and what follows it. -/
def parseOperand : List Token → Option (Operand × List Token)
  | .word w :: rest =>
    match numberValue w with
    | some v => some (.num v, rest)
    | none => none
  | .openBracket :: .closeBracket :: rest => some (.list [], rest)
  | .openBracket :: rest =>
    match parseList rest with
    | some (vs, after) => some (.list vs, after)
    | none => none
  | _ => none

/-- The operands of a line, separated by commas; the fuel is the number of tokens. -/
def parseOperands : Nat → List Token → Option (List Operand)
  | 0, _ => none
  | fuel + 1, ts =>
    match parseOperand ts with
    | none => none
    | some (o, []) => some [o]
    | some (o, .comma :: rest) =>
      match parseOperands fuel rest with
      | some os => some (o :: os)
      | none => none
    | some (_, _ :: _) => none

/-- The line of a mnemonic and its operands (R63, R64). -/
def lineOf (m : List Char) : List Operand → Option AsmLine
  | [] =>
    if m = "CRC_INIT".toList then some .crcInit
    else if m = "CRC_READ".toList then some .crcRead
    else none
  | [.num d8] => if m = "CRC_UPDATE".toList then some (.crcUpdate d8) else none
  | [.list bytes] => if m = "CRC_COMPUTE".toList then some (.crcCompute bytes) else none
  | [.num n, .num ra] => if m = "REG_READ".toList then some (.regRead n ra) else none
  | [.num n, .num wa, .list data] => if m = "REG_WRITE".toList then some (.regWrite n wa data) else none
  | [.num n, .num ra, .num wa, .list mask, .list value] =>
    if m = "REG_RMW".toList then some (.regRmw n ra wa mask value) else none
  | [.num n, .num ra, .num wa, .list mask] =>
    if m = "REG_SET".toList then some (.regSet n ra wa mask)
    else if m = "REG_CLEAR".toList then some (.regClear n ra wa mask)
    else none
  | [.num n, .num ra, .num wa, .num i, .num lsb, .num fw, .num v] =>
    if m = "REG_FIELD".toList then some (.regField n ra wa i lsb fw v) else none
  | _ => none

/-- The line of its text. -/
def parseLine (text : List Char) : Option AsmLine :=
  match tokens [] text with
  | [.word m] => lineOf m []
  | .word m :: rest =>
    match parseOperands rest.length rest with
    | some os => lineOf m os
    | none => none
  | _ => none

/-- The commands of a line's text. -/
def assembleText (text : List Char) : Option (List Command) :=
  match parseLine text with
  | some line => assemble line
  | none => none

end Sys2Proof.Machine
end

