-- ==== Sys2Proof/Machine/Device.lean ====
section
/-! DEFINITION. The device's register map and what its bytes mean to a host (spec/20_memory.md R28 to R35;
70_reset_and_hazards.md R113, R114, R117). The unit reads none of this: it holds no register map (R27, R105). -/

namespace Sys2Proof.Machine

/-- The device registers the source names (R28). -/
inductive DeviceRegister where
  | modeSelect
  | fpgaControl
  | activeBufferIndex
  | videoInterface
  | darkLightFrame
  | externalPrintConfig
  | crcResult
deriving DecidableEq, Repr

/-- The write address; the CRC-result register has none (R28). -/
def DeviceRegister.writeAddr : DeviceRegister → Option Byte
  | .modeSelect => some 0x05
  | .fpgaControl => some 0xCA
  | .activeBufferIndex => some 0xC5
  | .videoInterface => some 0xC3
  | .darkLightFrame => some 0xC1
  | .externalPrintConfig => some 0xA8
  | .crcResult => none

/-- The read address (R28). -/
def DeviceRegister.readAddr : DeviceRegister → Byte
  | .modeSelect => 0x06
  | .fpgaControl => 0xCB
  | .activeBufferIndex => 0xC6
  | .videoInterface => 0xC4
  | .darkLightFrame => 0xC2
  | .externalPrintConfig => 0xA9
  | .crcResult => 0xCE

/-- The width in bytes (R28). -/
def DeviceRegister.width : DeviceRegister → Nat
  | .modeSelect => 1
  | .fpgaControl => 1
  | .activeBufferIndex => 1
  | .videoInterface => 1
  | .darkLightFrame => 5
  | .externalPrintConfig => 2
  | .crcResult => 2

/-- The registers the source names as showing stale readback (R114). No read answer of any register is constrained by
an earlier write, whether it is named here or not. -/
def DeviceRegister.staleReadback : DeviceRegister → Bool
  | .modeSelect => false
  | .fpgaControl => true
  | .activeBufferIndex => true
  | .videoInterface => true
  | .darkLightFrame => false
  | .externalPrintConfig => false
  | .crcResult => false

/-- Bit 2 of the FPGA-control register: the device's CRC16 checking (R30). -/
def crcCheckMask : Byte := 0x04

/-- The device's operating mode as its byte reads back (R31). -/
inductive DeviceMode where
  | standby
  | testPattern
  | externalPrint
  | unknown (raw : Byte)
deriving DecidableEq, Repr

/-- The mode of a byte read at `0x06`: "any other readback value maps to Unknown(raw)" (R31). -/
def DeviceMode.ofByte (b : Byte) : DeviceMode :=
  if b = 0xFF then .standby
  else if b = 0x01 then .testPattern
  else if b = 0x06 then .externalPrint
  else .unknown b

/-- The byte of a mode (R31). -/
def DeviceMode.byte : DeviceMode → Byte
  | .standby => 0xFF
  | .testPattern => 0x01
  | .externalPrint => 0x06
  | .unknown raw => raw

/-- A count as two bytes, big-endian (R32). -/
def countBytes (count : BitVec 16) : List Byte := [count.extractLsb' 8 8, count.extractLsb' 0 8]

/-- The dark/light-frame block: the print-settings byte and the two counts (R32). -/
def exposurePayload (printSettings : Byte) (dark exposed : BitVec 16) : List Byte :=
  printSettings :: countBytes dark ++ countBytes exposed

/-- The external-print configuration: degamma selector and illuminator bitmask (R33). -/
def printConfig (degamma illuminator : Byte) : List Byte := [degamma, illuminator]

/-- The write a mode request takes, none where the byte read back is the mode's already (R90, X4). -/
def requestMode (mode : DeviceMode) (readback : Byte) : Option Instr :=
  if readback = mode.byte then none else some (.regWrite 1 0x05 [mode.byte])

/-- The device set-up of R113 in its order, the settle delays aside. The mask of the active buffer index is the
caller's: the source gives no bit position (91_not_in_source.md N6). -/
def setupSequence (bufferMask : Byte) : List Instr :=
  [ .regWrite 1 0x05 [DeviceMode.standby.byte],
    regSet 1 0xCB 0xCA [crcCheckMask],
    regClear 1 0xC6 0xC5 [bufferMask],
    .regWrite 2 0xA8 (printConfig 0x00 0x00) ]

/-- The exposure trigger as one read-modify-write that keeps the print-settings byte (R32; 95_test_vectors.md P3). -/
def exposureTrigger (dark exposed : BitVec 16) : Instr :=
  .regRmw 5 0xC2 0xC1 [0x00, 0xFF, 0xFF, 0xFF, 0xFF] (exposurePayload 0x00 dark exposed)

/-- A write to `0xC1` triggers an exposure (R32, R117). -/
def triggersExposure : Instr → Bool
  | .crcInit => false
  | .crcUpdate _ => false
  | .crcRead => false
  | .regRead _ _ => false
  | .regWrite _ wa _ => wa == 0xC1
  | .regRmw _ _ wa _ _ => wa == 0xC1

end Sys2Proof.Machine
end

