-- ==== Sys2Proof/Safety.lean ====
section
/-! DEFINITION. The terms the statements use: which command a step takes, the invariant, what the CRC commands of a
sequence fold, and which response fits a command. -/

namespace Sys2Proof.Machine

/-- The coming step takes the command `c`: the unit is idle, the host offers `c`, and there is no reset in the step. -/
abbrev State.Takes (s : State) (c : Command) : Prop :=
  s.acc = .idle ∧ s.resetNow = .quiet ∧ s.port.head? = some c

/-- The state in which that command is executed: it is taken from the host, and the step's reset entry is used. -/
def State.taken (s : State) : State := { s with port := s.port.tail, resetLine := s.resetLine.tail }

/-- The state after the command taken is refused: its one response, no data, and nothing else (30_encoding.md R59). -/
def State.refused (s : State) (st : Status) : State :=
  { s.taken with responses := s.responses ++ [⟨st, []⟩] }

/-- The widths `acc` records agree (10_state.md R19). -/
def Acc.Wf (a : Acc) : Prop :=
  match a with
  | .idle => True
  | .rmwWrite _ n old new => LegalWidth n ∧ old.length = n ∧ new.length = n

/-- A transaction transfers 1 to 5 bytes, and a read that is answered returns exactly as many as it asked for
(20_memory.md R26, R41; 41_regaccess.md R81). -/
def BusEvent.Wf (e : BusEvent) : Prop :=
  match e with
  | .rd _ n (.ok bytes) => LegalWidth n ∧ bytes.length = n
  | .rd _ n (.err _) => LegalWidth n
  | .wr _ bytes _ => LegalWidth bytes.length
  | .rdCut _ n => LegalWidth n
  | .wrCut _ bytes => LegalWidth bytes.length

/-- What a response may carry (60_exceptions.md R96): the two command errors and a failed read nothing; a failed write
nothing or `old ++ new`; a success at most the ten bytes of a `REG_RMW`. -/
def Response.Wf (r : Response) : Prop :=
  match r.status with
  | .ok => r.data.length ≤ 2 * Config.maxWidth
  | .busError _ .read => r.data = []
  | .busError _ .write => r.data.length ≤ 2 * Config.maxWidth ∧ r.data.length % 2 = 0
  | .invalidConfiguration => r.data = []
  | .illegalCommand => r.data = []

/-- A write is owed only right after the read it merges (10_state.md R19): the last event of the history is that read,
answered with the `old` bytes. -/
def State.OwesItsRead (s : State) : Prop :=
  match s.acc with
  | .idle => True
  | .rmwWrite _ n old _ => ∃ ra, s.history.getLast? = some (.rd ra n (.ok old))

/-- The invariant of the unit. -/
def State.Inv (s : State) : Prop :=
  s.acc.Wf ∧ s.OwesItsRead ∧ (∀ e ∈ s.history, e.Wf) ∧ ∀ r ∈ s.responses, r.Wf

/-- The CRC register after the commands, taken in order: only `CRC_INIT` and `CRC_UPDATE` write it (10_state.md R13). -/
def crcAfter (crc : CrcWord) : List Command → CrcWord
  | [] => crc
  | c :: cs =>
    match decode c with
    | .ok .crcInit => crcAfter Config.crcSeed cs
    | .ok (.crcUpdate d8) => crcAfter (crcStep crc d8) cs
    | .ok .crcRead => crcAfter crc cs
    | .ok (.regRead _ _) => crcAfter crc cs
    | .ok (.regWrite _ _ _) => crcAfter crc cs
    | .ok (.regRmw _ _ _ _ _) => crcAfter crc cs
    | .error _ => crcAfter crc cs

/-- The bytes the commands give to `CRC_UPDATE`, in order: a command that fails decoding is not an update (R73). -/
def updateBytes : List Command → List Byte
  | [] => []
  | c :: cs =>
    match decode c with
    | .ok (.crcUpdate d8) => d8 :: updateBytes cs
    | _ => updateBytes cs

/-- Which responses a command may get (60_exceptions.md R96, R97). -/
def ResponseFits (c : Command) (r : Response) : Prop :=
  match decode c with
  | .error e => r = ⟨errorStatus e, []⟩
  | .ok .crcInit => r = ⟨.ok, []⟩
  | .ok (.crcUpdate _) => r = ⟨.ok, []⟩
  | .ok .crcRead => r.status = .ok ∧ r.data.length = 2
  | .ok (.regRead n _) => (r.status = .ok ∧ r.data.length = n) ∨ ∃ k, r = ⟨.busError k .read, []⟩
  | .ok (.regWrite _ _ _) => r = ⟨.ok, []⟩ ∨ ∃ k, r = ⟨.busError k .write, []⟩
  | .ok (.regRmw n _ _ _ _) =>
    (r.status = .ok ∧ r.data.length = 2 * n) ∨ (∃ k, r = ⟨.busError k .read, []⟩)
      ∨ ∃ k, r.status = .busError k .write ∧ r.data.length = 2 * n

/-- How many writes to a register address the history holds, cut ones among them. -/
def writesTo (a : Byte) : List BusEvent → Nat
  | [] => 0
  | .rd _ _ _ :: es => writesTo a es
  | .wr b _ _ :: es => (if b = a then 1 else 0) + writesTo a es
  | .rdCut _ _ :: es => writesTo a es
  | .wrCut b _ :: es => (if b = a then 1 else 0) + writesTo a es

/-- How many of the commands name that address as their write address. -/
def writeCommands (a : Byte) : List Command → Nat
  | [] => 0
  | c :: cs =>
    match decode c with
    | .ok (.regWrite _ wa _) => (if wa = a then 1 else 0) + writeCommands a cs
    | .ok (.regRmw _ _ wa _ _) => (if wa = a then 1 else 0) + writeCommands a cs
    | _ => writeCommands a cs

end Sys2Proof.Machine
end

