-- ==== Sys2Proof/Certificates/Slice0/Obligations.lean ====
section
/-! DEFINITION. The statements. Each docstring names the rule of spec/ it formalises; where a clause rests on a decision
of the spec (D<n> of 92_eei_decisions.md), on an inference the spec marks, or on the model's own choice (a log entry),
the docstring says so. `s.Takes c`: the unit is idle, no reset is in the coming step, the host offers `c`.
`s.taken`: `s` once that command is taken. `s.refused st`: `s.taken` with the one response `st`, no data. -/

open Sys2Proof Sys2Proof.Machine

/-! ## Reset, waiting, flow control -/

/-- After reset `crc` is `0xFFFF` and `acc` is `IDLE`: the values are the spec's own decision D9 (10_state.md,
70_reset_and_hazards.md section 1). -/
def Obligations.ResetLeavesSeedAndIdle : Prop :=
  State.reset.crc = 0xFFFF ∧ State.reset.acc = .idle

/-- A reset before a step takes the step's place; a reset inside a step abandons the command in progress without a
response (70_reset_and_hazards.md section 1, the spec's own decision D9). That the reset line is a list, and that the
history holds a cut transaction without an answer, are the model's choices (log entries 3 and 4). -/
def Obligations.ResetAbandonsTheCommandInProgress : Prop :=
  ∀ s : State,
    (s.resetNow = .before →
      step s = .next { s with crc := 0xFFFF, acc := .idle, resetLine := s.resetLine.tail }) ∧
    (s.resetNow = .during →
      (∀ wa n old new, s.acc = .rmwWrite wa n old new →
        step s = .next { s with
          crc := 0xFFFF, acc := .idle, resetLine := s.resetLine.tail, history := s.history ++ [.wrCut wa new] }) ∧
      (∀ c, s.acc = .idle → s.port.head? = some c →
        step s = .next { s.taken with
          crc := 0xFFFF
          acc := .idle
          history := s.history ++
            (match decode c with
              | .ok (.regRead n ra) => [.rdCut ra n]
              | .ok (.regWrite _ wa data) => [.wrCut wa data]
              | .ok (.regRmw n ra _ _ _) => [.rdCut ra n]
              | _ => []) }) ∧
      (s.acc = .idle → s.port = [] →
        step s = .next { s with crc := 0xFFFF, resetLine := s.resetLine.tail }))

/-- A reset between the read and the write of a `REG_RMW` loses the write: two steps leave the read in the history, no
write, no response, and the unit as after reset (70_reset_and_hazards.md section 1, decision D9). -/
def Obligations.ResetBetweenReadAndWriteLosesTheWrite : Prop :=
  ∀ (s : State) (n : Nat) (ra wa : Byte) (mask value : List Byte) (rest : List Command) (b : Vector Byte 5)
    (r : List ResetSignal),
    (Instr.regRmw n ra wa mask value).WellFormed → s.acc = .idle →
    s.port = encode (.regRmw n ra wa mask value) :: rest → s.resetLine = .quiet :: .before :: r →
    s.nextAnswer = .ok b →
    Sys2Proof.core.run 2 s = .next { s.dropAnswer with
      crc := 0xFFFF
      acc := .idle
      port := rest
      resetLine := r
      history := s.history ++ [.rd ra n (.ok (b.toList.take n))] }

/-- With no command offered an idle unit waits, holding `crc` (60_exceptions.md section 6, 70_reset_and_hazards.md
section 1). That waiting is a step that changes nothing but the reset schedule is the model's choice (log entry 2). -/
def Obligations.IdleUnitWaitsForACommand : Prop :=
  ∀ s : State, s.acc = .idle → s.port = [] → s.resetNow = .quiet →
    step s = .next { s with resetLine := s.resetLine.tail }

/-- A busy unit accepts no command (10_state.md section 4, decision D22): its own step leaves the host's commands where
they are, and ends idle. That `exec` on a busy unit changes nothing is the model's choice: the step never offers one a
command (log entry 12, DEDUCED). -/
def Obligations.BusyUnitAcceptsNoCommand : Prop :=
  ∀ s : State, s.acc ≠ .idle →
    (∀ i, exec i s = .next s) ∧
    (∀ t, s.resetNow = .quiet → step s = .next t → t.port = s.port ∧ t.acc = .idle)

/-- When the command offered decodes to `i`, the step is `exec i` on the state in which the command is taken. -/
def Obligations.StepRunsTheDecodedInstruction : Prop :=
  ∀ (s : State) (c : Command) (i : Instr), s.Takes c → decode c = .ok i → step s = exec i s.taken

/-- No state makes a step stop: every error of the unit is a response, and every transaction is answered
(60_exceptions.md section 1, decision D7; 70_reset_and_hazards.md section 4, decision D34, log entry 10). -/
def Obligations.StepAlwaysAnswersNext : Prop :=
  (∀ s : State, ∃ t, step s = .next t) ∧ ∀ (i : Instr) (s : State), ∃ t, exec i s = .next t

/-! ## Encoding -/

/-- R59, with the rows of R53 and R54 and the operands of R52: the checks in their order, each row with its match, mask,
operand count and operands; a command that fails a check has no effect on `crc` or `acc`, issues no bus transaction, and
gets the response of that check. -/
def Obligations.DecodeChecksInOrder : Prop :=
  ∀ (w : CmdWord) (ops : List Byte),
    let op := (w.extractLsb' 28 4).toNat
    let n := (w.extractLsb' 24 4).toNat
    let ra := w.extractLsb' 16 8
    let wa := w.extractLsb' 8 8
    ((op = 0 ∨ 7 ≤ op) → decode ⟨w, ops⟩ = .error .reservedOp) ∧
    (∀ row ∈ ([ (1, 0x10000000, 0xFFFFFFFF, false, 0, .crcInit),
               (2, 0x20000000, 0xFFFFFF00, false, 0, .crcUpdate (w.extractLsb' 0 8)),
               (3, 0x30000000, 0xFFFFFFFF, false, 0, .crcRead),
               (4, 0x40000000, 0xF000FFFF, true, 0, .regRead n ra),
               (5, 0x50000000, 0xF0FF00FF, true, n, .regWrite n wa ops),
               (6, 0x60000000, 0xF00000FF, true, 2 * n, .regRmw n ra wa (ops.take n) (ops.drop n)) ] :
              List (Nat × CmdWord × CmdWord × Bool × Nat × Instr)),
      op = row.1 →
        (w &&& row.2.2.1 ≠ row.2.1 → decode ⟨w, ops⟩ = .error .nonzeroField) ∧
        (w &&& row.2.2.1 = row.2.1 →
          (row.2.2.2.1 = true → ¬ (1 ≤ n ∧ n ≤ 5) → decode ⟨w, ops⟩ = .error .badWidth) ∧
          ((row.2.2.2.1 = true → 1 ≤ n ∧ n ≤ 5) →
            (ops.length ≠ row.2.2.2.2.1 → decode ⟨w, ops⟩ = .error .badOperandLength) ∧
            (ops.length = row.2.2.2.2.1 → decode ⟨w, ops⟩ = .ok row.2.2.2.2.2)))) ∧
    ∀ (s : State) (e : DecodeError), s.Takes ⟨w, ops⟩ → decode ⟨w, ops⟩ = .error e →
      step s = .next (s.refused
        (match e with
          | .reservedOp => .illegalCommand
          | .nonzeroField => .illegalCommand
          | .badWidth => .invalidConfiguration
          | .badOperandLength => .invalidConfiguration))

/-- R57: a word selects at most one row of the table; one that selects none is illegal whatever its operands. -/
def Obligations.WordIsOneCommandOrIllegal : Prop :=
  ∀ w : CmdWord,
    let selected := ([ (0x10000000, 0xFFFFFFFF), (0x20000000, 0xFFFFFF00), (0x30000000, 0xFFFFFFFF),
        (0x40000000, 0xF000FFFF), (0x50000000, 0xF0FF00FF), (0x60000000, 0xF00000FF) ] :
          List (CmdWord × CmdWord)).filter fun row => w &&& row.2 == row.1
    selected.length ≤ 1 ∧
    (selected = [] → ∀ ops, ∃ e, decode ⟨w, ops⟩ = .error e ∧ errorStatus e = .illegalCommand) ∧
    (selected ≠ [] → ∀ ops e, decode ⟨w, ops⟩ = .error e → errorStatus e = .invalidConfiguration)

/-- The command of every well-formed instruction decodes to it, with every operand at every value. -/
def Obligations.DecodeOfEncodeIsTheInstruction : Prop :=
  ∀ i : Instr, i.WellFormed → decode (encode i) = .ok i

/-- Whatever decodes is well formed and has that one encoding: no two commands have one meaning. -/
def Obligations.EncodeOfDecodeIsTheCommand : Prop :=
  ∀ (c : Command) (i : Instr), decode c = .ok i → i.WellFormed ∧ encode i = c

/-- A serialised command is its word, most significant byte first, then its operands, and a decoder that reads the word
knows how many follow (30_encoding.md sections 1 and 5, decisions D4 and D12). -/
def Obligations.SerialisedCommandReadsBack : Prop :=
  (∀ c : Command, Command.ofBytes c.bytes = some c ∧
    c.bytes.take 4 = [c.word.extractLsb' 24 8, c.word.extractLsb' 16 8, c.word.extractLsb' 8 8, c.word.extractLsb' 0 8] ∧
    c.bytes.drop 4 = c.ops) ∧
  ∀ (i : Instr) (rest : List Byte), i.WellFormed → Command.next ((encode i).bytes ++ rest) = some (encode i, rest)

/-- A few words of 30_encoding.md section 7 and 95_test_vectors.md section 2.3 decode to what the spec says. -/
def Obligations.SpecWordsDecode : Prop :=
  decode ⟨0x10000000, []⟩ = .ok .crcInit ∧
  decode ⟨0x2000005A, []⟩ = .ok (.crcUpdate 0x5A) ∧
  decode ⟨0x30000000, []⟩ = .ok .crcRead ∧
  decode ⟨0x41CB0000, []⟩ = .ok (.regRead 1 0xCB) ∧
  decode ⟨0x5100CA00, [0x05]⟩ = .ok (.regWrite 1 0xCA [0x05]) ∧
  decode ⟨0x61CBCA00, [0x04, 0x04]⟩ = .ok (.regRmw 1 0xCB 0xCA [0x04] [0x04])

/-- The status byte: status in bits 1:0, kind in 3:2, phase in 4 (both zero unless `BUS_ERROR`), zero in 7:5, and the
codes (30_encoding.md section 6, decisions D7 and D8); no two statuses share a byte. -/
def Obligations.StatusByteLayout : Prop :=
  (∀ st : Status,
    st.byte.extractLsb' 5 3 = 0 ∧
    match st with
    | .ok => st.byte = 0x00
    | .busError k p =>
      st.byte.extractLsb' 0 2 = 1 ∧
      st.byte.extractLsb' 2 2 = (match k with | .absent => 0 | .nack => 1 | .timeout => 2 | .other => 3) ∧
      st.byte.extractLsb' 4 1 = (match p with | .read => 0 | .write => 1)
    | .invalidConfiguration => st.byte = 0x02
    | .illegalCommand => st.byte = 0x03) ∧
  (∀ st st' : Status, st.byte = st'.byte → st = st') ∧
  ∀ r : Response, r.bytes = r.status.byte :: r.data

/-- The assembler refuses a byte list whose length is not `n`, `n` outside `1..5` and a number that does not fit its
field; what it emits always decodes (30_encoding.md section 7, decision D36). -/
def Obligations.AssemblerEmitsOnlyLegalCommands : Prop :=
  (∀ line cs, assemble line = some cs → ∀ c ∈ cs, ∃ i, decode c = .ok i) ∧
  (∀ d, (assemble (.crcUpdate d)).isSome = true ↔ d < 256) ∧
  (∀ n ra, (assemble (.regRead n ra)).isSome = true ↔ (1 ≤ n ∧ n ≤ 5) ∧ ra < 256) ∧
  (∀ n wa data, (assemble (.regWrite n wa data)).isSome = true ↔
    (1 ≤ n ∧ n ≤ 5) ∧ wa < 256 ∧ data.length = n ∧ ∀ b ∈ data, b < 256) ∧
  ∀ n ra wa mask value, (assemble (.regRmw n ra wa mask value)).isSome = true ↔
    (1 ≤ n ∧ n ≤ 5) ∧ ra < 256 ∧ wa < 256 ∧ mask.length = n ∧ value.length = n ∧
      (∀ b ∈ mask, b < 256) ∧ ∀ b ∈ value, b < 256

/-! ## The CRC commands -/

/-- R69, `CRC_INIT`: `crc <- 0xFFFF`, response OK without data, and nothing else; a word with another nonzero field is
`ILLEGAL_COMMAND`, operand bytes are `INVALID_CONFIGURATION`, and `crc` is then unchanged. -/
def Obligations.CrcInitCommand : Prop :=
  (∀ s : State, s.acc = .idle →
    exec .crcInit s = .next { s with crc := 0xFFFF, responses := s.responses ++ [⟨.ok, []⟩] }) ∧
  ∀ (s : State) (w : CmdWord) (ops : List Byte), s.Takes ⟨w, ops⟩ → w.extractLsb' 28 4 = 0x1 →
    (w ≠ 0x10000000 → step s = .next (s.refused .illegalCommand)) ∧
    (w = 0x10000000 → ops ≠ [] → step s = .next (s.refused .invalidConfiguration)) ∧
    (w = 0x10000000 → ops = [] →
      step s = .next { s.taken with crc := 0xFFFF, responses := s.responses ++ [⟨.ok, []⟩] })

/-- R70, `CRC_UPDATE d8`: `crc <- crc_step(crc, w[7:0])`, response OK without data, and nothing else; the malformed
forms, and the corner values of the step. -/
def Obligations.CrcUpdateCommand : Prop :=
  (∀ (s : State) (d8 : Byte), s.acc = .idle →
    exec (.crcUpdate d8) s = .next { s with crc := crcStep s.crc d8, responses := s.responses ++ [⟨.ok, []⟩] }) ∧
  (∀ (s : State) (w : CmdWord) (ops : List Byte), s.Takes ⟨w, ops⟩ → w.extractLsb' 28 4 = 0x2 →
    (w &&& 0x0FFFFF00 ≠ 0 → step s = .next (s.refused .illegalCommand)) ∧
    (w &&& 0x0FFFFF00 = 0 → ops ≠ [] → step s = .next (s.refused .invalidConfiguration)) ∧
    (w &&& 0x0FFFFF00 = 0 → ops = [] →
      step s = .next { s.taken with
        crc := crcStep s.crc (w.extractLsb' 0 8), responses := s.responses ++ [⟨.ok, []⟩] })) ∧
  crcStep 0x0000 0x00 = 0x0000 ∧ crcStep 0xFFFF 0xFF = 0xFF00 ∧ crcStep 0xFF00 0xFF = 0x0000 ∧
  crcStep 0xFFFF 0x00 = 0xFD02

/-- R71, `CRC_READ`: response OK with `[crc[7:0], crc[15:8]]`, whose value is the register; nothing else changes; the
malformed forms. -/
def Obligations.CrcReadCommand : Prop :=
  (∀ s : State, s.acc = .idle →
    exec .crcRead s = .next { s with
      responses := s.responses ++ [⟨.ok, [s.crc.extractLsb' 0 8, s.crc.extractLsb' 8 8]⟩] }) ∧
  (∀ (s : State) (w : CmdWord) (ops : List Byte), s.Takes ⟨w, ops⟩ → w.extractLsb' 28 4 = 0x3 →
    (w ≠ 0x30000000 → step s = .next (s.refused .illegalCommand)) ∧
    (w = 0x30000000 → ops ≠ [] → step s = .next (s.refused .invalidConfiguration)) ∧
    (w = 0x30000000 → ops = [] →
      step s = .next { s.taken with
        responses := s.responses ++ [⟨.ok, [s.crc.extractLsb' 0 8, s.crc.extractLsb' 8 8]⟩] })) ∧
  (∀ c : CrcWord,
    (c.extractLsb' 0 8).setWidth 16 ||| ((c.extractLsb' 8 8).setWidth 16 <<< 8) = c) ∧
  crcBytes (compute [0x31, 0x32, 0x33, 0x34, 0x35, 0x36, 0x37, 0x38, 0x39]) = [0xE7, 0xAE]

/-- R74: a well-formed CRC command always responds OK, in one step, and never touches the bus or draws an answer. -/
def Obligations.CrcCommandsAlwaysRespondOk : Prop :=
  ∀ (s : State) (c : Command), s.Takes c →
    (decode c = .ok .crcInit ∨ (∃ d, decode c = .ok (.crcUpdate d)) ∨ decode c = .ok .crcRead) →
    ∃ t data, step s = .next t ∧ t.responses = s.responses ++ [⟨.ok, data⟩] ∧ t.history = s.history ∧
      t.answers = s.answers ∧ t.draws = s.draws ∧ t.acc = .idle

/-- The byte step is eight single-bit steps that take bit 7 first (40_crc.md section 1: a law the spec marks as derived
from its rule of the byte step). -/
def Obligations.CrcStepIsBitSerialMsbFirst : Prop :=
  ∀ (c : CrcWord) (d : Byte), crcStepSerial c d = crcStep c d

/-- The parallel form of the byte step, bit by bit (40_crc.md section 1: marked as derived). -/
def Obligations.CrcStepParallelForm : Prop :=
  ∀ (c : CrcWord) (d : Byte) (i : Nat), i < 16 → (crcStep c d).getLsbD i = crcStepParallelBit c d i

/-- The byte step is linear over GF(2), and so is `compute` up to the CRC of zeros (40_crc.md section 3: marked as
derived). -/
def Obligations.CrcIsLinear : Prop :=
  (∀ (c c' : CrcWord) (d d' : Byte), crcStep (c ^^^ c') (d ^^^ d') = crcStep c d ^^^ crcStep c' d') ∧
  ∀ a b : List Byte, a.length = b.length →
    compute (List.zipWith (fun x y => x ^^^ y) a b) =
      compute a ^^^ compute b ^^^ compute (List.replicate a.length 0x00)

/-- The CRC appended high byte first leaves zero; appended low byte first, as the frame does it, it need not
(40_crc.md section 3: marked as derived). -/
def Obligations.CrcResidue : Prop :=
  (∀ s : List Byte, compute (s ++ [(compute s).extractLsb' 8 8, (compute s).extractLsb' 0 8]) = 0x0000) ∧
  compute ([0x31, 0x32, 0x33, 0x34, 0x35, 0x36, 0x37, 0x38, 0x39] ++ [0xE7, 0xAE]) = 0x37B3

open Polynomial in
/-- The closed form: `compute(s)` is `(S(x)·x^(8k) + M(x)·x^16) mod P(x)` over GF(2) (40_crc.md section 3: marked as
derived). Bit 7 of `s0` is the coefficient of `x^(8k-1)` in `M`, bit 0 of the last byte that of `x^0`. -/
def Obligations.CrcClosedForm : Prop :=
  ∀ s : List Byte,
    (∑ i ∈ Finset.range 16, if (compute s).getLsbD i then (X : (ZMod 2)[X]) ^ i else 0) =
      ((∑ i ∈ Finset.range 16, X ^ i) * X ^ (8 * s.length) +
        (∑ j ∈ Finset.range s.length, ∑ b ∈ Finset.range 8,
          if (s.getD j 0).getLsbD b then X ^ (8 * (s.length - 1 - j) + b) else 0) * X ^ 16)
      %ₘ (X ^ 16 + X ^ 15 + X ^ 2 + 1)

/-- `compute` is the catalogued CRC of width 16, poly `0x8005`, init `0xFFFF`, no reflection, no output XOR, with check
value `0xAEE7` (40_crc.md section 3: the catalogue entry is marked as general knowledge, the value as derived). -/
def Obligations.CrcIsTheCatalogued : Prop :=
  (∀ s : List Byte, catalogueCrc 0x8005 0xFFFF false false 0x0000 s = compute s) ∧
  compute [0x31, 0x32, 0x33, 0x34, 0x35, 0x36, 0x37, 0x38, 0x39] = 0xAEE7

/-- `CRC_COMPUTE [s0, ..., s(k-1)]` as commands: from any idle unit, one step a command, every response OK, the last
one carrying `compute(s)`, and nothing but `crc`, the commands taken and the responses changed (40_crc.md section 3 and
30_encoding.md section 7; `compute([]) = 0xFFFF` is decision D10). -/
def Obligations.CrcComputeCommandsReturnCompute : Prop :=
  ∀ (s : State) (bytes : List Byte) (rest : List Command),
    s.acc = .idle → s.resetLine = [] → s.port = (Machine.crcCompute bytes).map encode ++ rest →
    Sys2Proof.core.run (bytes.length + 2) s = .next { s with
      crc := compute bytes
      port := rest
      responses := s.responses ++ List.replicate (bytes.length + 1) ⟨.ok, []⟩ ++
        [⟨.ok, [(compute bytes).extractLsb' 0 8, (compute bytes).extractLsb' 8 8]⟩] }

/-- R73: what `CRC_READ` returns depends only on the bytes given to `CRC_UPDATE` since the last `CRC_INIT` and on their
order: whatever other commands stand between, legal or not, and whatever the bus answers. -/
def Obligations.CrcReadDependsOnlyOnTheUpdates : Prop :=
  ∀ (s : State) (before cs : List Command),
    s.acc = .idle → s.resetLine = [] → (∀ c ∈ cs, decode c ≠ .ok .crcInit) →
    s.port = before ++ encode .crcInit :: cs ++ [encode .crcRead] →
    ∃ t, Sys2Proof.core.run (2 * s.port.length) s = .next t ∧
      t.responses.getLast? = some ⟨.ok, crcBytes (compute (updateBytes cs))⟩ ∧
      t.crc = compute (updateBytes cs)

/-- Only `CRC_INIT`, `CRC_UPDATE` and reset write `crc`: no register command, no error, no bus answer does
(10_state.md sections 1 and 2, decisions D3 and D28). -/
def Obligations.OnlyInitUpdateAndResetWriteCrc : Prop :=
  ∀ s t : State, step s = .next t →
    t.crc =
      if s.resetNow = .quiet then
        (match s.acc, s.port with
          | .idle, c :: _ =>
            (match decode c with
              | .ok .crcInit => 0xFFFF
              | .ok (.crcUpdate d) => crcStep s.crc d
              | _ => s.crc)
          | _, _ => s.crc)
      else 0xFFFF

/-- R36: a CRC value is its low byte and then its high byte, in `CRC_READ`'s data and in a frame's trailer, and the two
bytes of the device's CRC-result register read back the same way. -/
def Obligations.CrcValuesAreLowByteFirst : Prop :=
  (∀ c : CrcWord, crcBytes c = [c.extractLsb' 0 8, c.extractLsb' 8 8] ∧
    crcOfBytes (c.extractLsb' 0 8) (c.extractLsb' 8 8) = c) ∧
  (∀ lo hi : Byte, crcBytes (crcOfBytes lo hi) = [lo, hi]) ∧
  (∀ f : List Byte, withTrailer f = f ++ [(compute f).extractLsb' 0 8, (compute f).extractLsb' 8 8]) ∧
  ∀ s : State, s.acc = .idle →
    exec .crcRead s = .next { s with
      responses := s.responses ++ [⟨.ok, [s.crc.extractLsb' 0 8, s.crc.extractLsb' 8 8]⟩] }

/-! ## The register commands -/

/-- R83, `REG_READ n, ra`: one read transaction, its bytes or its error in phase `READ`, for every address and every
legal width, and nothing else; the malformed forms are refused before any transaction. -/
def Obligations.RegReadCommand : Prop :=
  (∀ (s : State) (n : Nat) (ra : Byte), s.acc = .idle → 1 ≤ n ∧ n ≤ 5 →
    (∀ b, s.nextAnswer = .ok b →
      exec (.regRead n ra) s = .next { s.dropAnswer with
        history := s.history ++ [.rd ra n (.ok (b.toList.take n))]
        responses := s.responses ++ [⟨.ok, b.toList.take n⟩] } ∧ (b.toList.take n).length = n) ∧
    (∀ k, s.nextAnswer = .err k →
      exec (.regRead n ra) s = .next { s.dropAnswer with
        history := s.history ++ [.rd ra n (.err k)]
        responses := s.responses ++ [⟨.busError k .read, []⟩] })) ∧
  ∀ (s : State) (w : CmdWord) (ops : List Byte), s.Takes ⟨w, ops⟩ → w.extractLsb' 28 4 = 0x4 →
    let n := (w.extractLsb' 24 4).toNat
    (w &&& 0x0000FFFF ≠ 0 → step s = .next (s.refused .illegalCommand)) ∧
    (w &&& 0x0000FFFF = 0 → ¬ (1 ≤ n ∧ n ≤ 5) ∨ ops ≠ [] → step s = .next (s.refused .invalidConfiguration)) ∧
    (w &&& 0x0000FFFF = 0 → (1 ≤ n ∧ n ≤ 5) → ops = [] →
      step s = exec (.regRead n (w.extractLsb' 16 8)) s.taken)

/-- R84, `REG_WRITE n, wa, [data]`: one write transaction of exactly the data, OK or its error in phase `WRITE`, for
every address and every legal width, and nothing else; the malformed forms. -/
def Obligations.RegWriteCommand : Prop :=
  (∀ (s : State) (n : Nat) (wa : Byte) (data : List Byte), s.acc = .idle → 1 ≤ n ∧ n ≤ 5 → data.length = n →
    (∀ b, s.nextAnswer = .ok b →
      exec (.regWrite n wa data) s = .next { s.dropAnswer with
        history := s.history ++ [.wr wa data .ok]
        responses := s.responses ++ [⟨.ok, []⟩] }) ∧
    (∀ k, s.nextAnswer = .err k →
      exec (.regWrite n wa data) s = .next { s.dropAnswer with
        history := s.history ++ [.wr wa data (.err k)]
        responses := s.responses ++ [⟨.busError k .write, []⟩] })) ∧
  ∀ (s : State) (w : CmdWord) (ops : List Byte), s.Takes ⟨w, ops⟩ → w.extractLsb' 28 4 = 0x5 →
    let n := (w.extractLsb' 24 4).toNat
    (w &&& 0x00FF00FF ≠ 0 → step s = .next (s.refused .illegalCommand)) ∧
    (w &&& 0x00FF00FF = 0 → ¬ (1 ≤ n ∧ n ≤ 5) ∨ ops.length ≠ n →
      step s = .next (s.refused .invalidConfiguration)) ∧
    (w &&& 0x00FF00FF = 0 → (1 ≤ n ∧ n ≤ 5) → ops.length = n →
      step s = exec (.regWrite n (w.extractLsb' 8 8) ops) s.taken)

/-- `REG_RMW` step 1 (41_regaccess.md section 2): for a command that has passed decoding, and when `acc = IDLE`, it
issues exactly one read; on `Ok(old)` it owes the merged bytes and does not respond, on `Err(k)` it responds and stays
idle. The other two clauses are the model's choice: that `exec` of an ill-formed `REG_RMW`, which no step runs, responds
`INVALID_CONFIGURATION` (log entry 11, DEDUCED), and that `exec` on a busy unit, which no step calls, changes nothing
(log entry 12, DEDUCED). -/
def Obligations.RegRmwReadStep : Prop :=
  ∀ (s : State) (n : Nat) (ra wa : Byte) (mask value : List Byte),
    (s.acc = .idle → (Instr.regRmw n ra wa mask value).WellFormed →
      (∀ b, s.nextAnswer = .ok b →
        exec (.regRmw n ra wa mask value) s = .next { s.dropAnswer with
          acc := .rmwWrite wa n (b.toList.take n) (merge (b.toList.take n) mask value)
          history := s.history ++ [.rd ra n (.ok (b.toList.take n))] }) ∧
      (∀ k, s.nextAnswer = .err k →
        exec (.regRmw n ra wa mask value) s = .next { s.dropAnswer with
          history := s.history ++ [.rd ra n (.err k)]
          responses := s.responses ++ [⟨.busError k .read, []⟩] })) ∧
    (s.acc = .idle → ¬ (Instr.regRmw n ra wa mask value).WellFormed →
      exec (.regRmw n ra wa mask value) s =
        .next { s with responses := s.responses ++ [⟨.invalidConfiguration, []⟩] }) ∧
    (s.acc ≠ .idle → exec (.regRmw n ra wa mask value) s = .next s)

/-- R87, `REG_RMW` step 2: in the phase `RMW_WRITE(wa, n, old, new)` the step issues exactly one write of `new`,
returns to `IDLE` whatever the answer, and responds with `old ++ new`; no other command runs between. -/
def Obligations.RegRmwWriteStep : Prop :=
  ∀ (s : State) (wa : Byte) (n : Nat) (old new : List Byte),
    s.acc = .rmwWrite wa n old new → s.resetNow = .quiet →
    (∀ b, s.nextAnswer = .ok b →
      step s = .next { s.dropAnswer with
        acc := .idle
        resetLine := s.resetLine.tail
        history := s.history ++ [.wr wa new .ok]
        responses := s.responses ++ [⟨.ok, old ++ new⟩] }) ∧
    (∀ k, s.nextAnswer = .err k →
      step s = .next { s.dropAnswer with
        acc := .idle
        resetLine := s.resetLine.tail
        history := s.history ++ [.wr wa new (.err k)]
        responses := s.responses ++ [⟨.busError k .write, old ++ new⟩] })

/-- R85, the whole `REG_RMW` from the command port: a failed read ends it in one step without a write; otherwise two
steps read `ra`, write the merge of the bytes read to `wa`, and respond with `old ++ new`, for every address pair and
every mask; the malformed forms are refused before the read. -/
def Obligations.RegRmwCommand : Prop :=
  (∀ (s : State) (n : Nat) (ra wa : Byte) (mask value : List Byte),
    (Instr.regRmw n ra wa mask value).WellFormed → s.Takes (encode (.regRmw n ra wa mask value)) →
    s.resetLine = [] →
    (∀ k, s.nextAnswer = .err k →
      step s = .next { s.dropAnswer with
        port := s.port.tail
        history := s.history ++ [.rd ra n (.err k)]
        responses := s.responses ++ [⟨.busError k .read, []⟩] }) ∧
    (∀ b, s.nextAnswer = .ok b →
      let old := b.toList.take n
      let new := merge old mask value
      (∀ b', s.dropAnswer.nextAnswer = .ok b' →
        Sys2Proof.core.run 2 s = .next { s.dropAnswer.dropAnswer with
          port := s.port.tail
          history := s.history ++ [.rd ra n (.ok old), .wr wa new .ok]
          responses := s.responses ++ [⟨.ok, old ++ new⟩] }) ∧
      (∀ k, s.dropAnswer.nextAnswer = .err k →
        Sys2Proof.core.run 2 s = .next { s.dropAnswer.dropAnswer with
          port := s.port.tail
          history := s.history ++ [.rd ra n (.ok old), .wr wa new (.err k)]
          responses := s.responses ++ [⟨.busError k .write, old ++ new⟩] }))) ∧
  ∀ (s : State) (w : CmdWord) (ops : List Byte), s.Takes ⟨w, ops⟩ → w.extractLsb' 28 4 = 0x6 →
    let n := (w.extractLsb' 24 4).toNat
    (w &&& 0x000000FF ≠ 0 → step s = .next (s.refused .illegalCommand)) ∧
    (w &&& 0x000000FF = 0 → ¬ (1 ≤ n ∧ n ≤ 5) ∨ ops.length ≠ 2 * n →
      step s = .next (s.refused .invalidConfiguration)) ∧
    (w &&& 0x000000FF = 0 → (1 ≤ n ∧ n ≤ 5) → ops.length = 2 * n →
      step s = exec (.regRmw n (w.extractLsb' 16 8) (w.extractLsb' 8 8) (ops.take n) (ops.drop n)) s.taken)

/-- R90: `REG_RMW` always writes, also when the merge changes nothing or the mask is zero, and `REG_WRITE` always
writes, whatever the history: after a `REG_RMW` whose read succeeds, and after a `REG_WRITE`, the last transaction is
that write. -/
def Obligations.WritesAreNeverElided : Prop :=
  (∀ (s : State) (n : Nat) (ra wa : Byte) (mask value : List Byte) (b : Vector Byte 5),
    (Instr.regRmw n ra wa mask value).WellFormed → s.Takes (encode (.regRmw n ra wa mask value)) →
    s.resetLine = [] → s.nextAnswer = .ok b →
    ∃ t a, Sys2Proof.core.run 2 s = .next t ∧
      t.history = s.history ++ [.rd ra n (.ok (b.toList.take n)), .wr wa (merge (b.toList.take n) mask value) a]) ∧
  ∀ (s : State) (n : Nat) (wa : Byte) (data : List Byte),
    (Instr.regWrite n wa data).WellFormed → s.Takes (encode (.regWrite n wa data)) →
    ∃ t a, step s = .next t ∧ t.history = s.history ++ [.wr wa data a]

/-- R82: byte by byte `(old & ~mask) | (value & mask)`; every bit of the result is the `old` bit where the mask bit is
0 and the `value` bit where it is 1. -/
def Obligations.MergeIsBitwise : Prop :=
  ∀ old mask value : List Byte, mask.length = old.length → value.length = old.length →
    (merge old mask value).length = old.length ∧
    ∀ i, i < old.length →
      (merge old mask value).getD i 0 =
        (old.getD i 0 &&& ~~~(mask.getD i 0)) ||| (value.getD i 0 &&& mask.getD i 0) ∧
      ∀ j, j < 8 → ((merge old mask value).getD i 0).getLsbD j =
        if (mask.getD i 0).getLsbD j then (value.getD i 0).getLsbD j else (old.getD i 0).getLsbD j

/-- R93: the merge never alters bits outside the mask. -/
def Obligations.MergePreservesBitsOutsideMask : Prop :=
  ∀ old mask value : List Byte, mask.length = old.length → value.length = old.length →
    ∀ i, i < old.length →
      (merge old mask value).getD i 0 &&& ~~~(mask.getD i 0) = old.getD i 0 &&& ~~~(mask.getD i 0)

/-- Insertion inside the mask, and its consequences (41_regaccess.md section 4: marked as derived). -/
def Obligations.MergeInsertsInsideMask : Prop :=
  ∀ (n : Nat) (old mask value : List Byte), old.length = n → mask.length = n → value.length = n →
    (∀ i, i < n → (merge old mask value).getD i 0 &&& mask.getD i 0 = value.getD i 0 &&& mask.getD i 0) ∧
    merge old (List.replicate n 0x00) value = old ∧
    merge old (List.replicate n 0xFF) value = value ∧
    merge (merge old mask value) mask value = merge old mask value ∧
    merge old mask value = merge old mask (List.zipWith (fun v m => v &&& m) value mask) ∧
    ∀ mask' value' : List Byte, mask'.length = n → value'.length = n →
      (∀ i, i < n → mask.getD i 0 &&& mask'.getD i 0 = 0) →
      merge (merge old mask value) mask' value' = merge (merge old mask' value') mask value

/-- `REG_SET`, `REG_CLEAR` and `REG_FIELD` set, clear and replace exactly the bits they name (30_encoding.md section 7;
that a field's value is cut to the field is log entry 13). -/
def Obligations.PseudoCommandsWriteExactlyTheirBits : Prop :=
  ∀ (n : Nat) (ra wa : Byte) (old : List Byte), LegalWidth n → old.length = n →
    (∀ m : List Byte, m.length = n →
      (Machine.regSet n ra wa m).WellFormed ∧ (Machine.regClear n ra wa m).WellFormed ∧
      (∃ v, Machine.regSet n ra wa m = .regRmw n ra wa m v ∧
        merge old m v = List.zipWith (fun o x => o ||| x) old m) ∧
      ∃ v, Machine.regClear n ra wa m = .regRmw n ra wa m v ∧
        merge old m v = List.zipWith (fun o x => o &&& ~~~x) old m) ∧
    ∀ i lsb fw v : Nat, FieldInByte n i lsb fw →
      (Machine.regField n ra wa i lsb fw v).WellFormed ∧
      ∃ m x, Machine.regField n ra wa i lsb fw v = .regRmw n ra wa m x ∧
        ∀ j, j < n → ∀ b, b < 8 →
          ((merge old m x).getD j 0).getLsbD b =
            if j = i ∧ lsb ≤ b ∧ b < lsb + fw then v.testBit (b - lsb) else (old.getD j 0).getLsbD b

/-- A read's answer is a draw: whatever has been written and read before, any bytes of the width asked for and any
error are possible answers (41_regaccess.md section 1 and 70_reset_and_hazards.md section 3, decision D21). That the
answers still to come stand in State as a list is the model's choice (log entry 5). -/
def Obligations.ReadAnswersAreUnconstrained : Prop :=
  ∀ (s : State) (n : Nat) (ra : Byte), s.acc = .idle → 1 ≤ n ∧ n ≤ 5 →
    (∀ bytes : List Byte, bytes.length = n → ∃ a : BusAnswer,
      exec (.regRead n ra) { s with answers := a :: s.answers } = .next { s with
        history := s.history ++ [.rd ra n (.ok bytes)]
        responses := s.responses ++ [⟨.ok, bytes⟩] }) ∧
    ∀ k : BusErrorKind, ∃ a : BusAnswer,
      exec (.regRead n ra) { s with answers := a :: s.answers } = .next { s with
        history := s.history ++ [.rd ra n (.err k)]
        responses := s.responses ++ [⟨.busError k .read, []⟩] }

/-- Two `REG_RMW` on one register whose second read still returns the old bytes: the second write merges into the old
bytes, and so undoes the first's bits outside its own mask (70_reset_and_hazards.md section 3: marked as derived). -/
def Obligations.StaleReadbackLosesTheFirstUpdate : Prop :=
  ∀ (s : State) (n : Nat) (ra wa : Byte) (m v m' v' : List Byte) (b w w' : Vector Byte 5) (rest : List Command)
    (more : List BusAnswer),
    (Instr.regRmw n ra wa m v).WellFormed → (Instr.regRmw n ra wa m' v').WellFormed →
    s.acc = .idle → s.resetLine = [] →
    s.port = encode (.regRmw n ra wa m v) :: encode (.regRmw n ra wa m' v') :: rest →
    s.answers = .ok b :: .ok w :: .ok b :: .ok w' :: more →
    let old := b.toList.take n
    ∃ t, Sys2Proof.core.run 4 s = .next t ∧
      t.history = s.history ++ [.rd ra n (.ok old), .wr wa (merge old m v) .ok, .rd ra n (.ok old),
        .wr wa (merge old m' v') .ok] ∧
      ∀ i, i < n → (merge old m' v').getD i 0 &&& ~~~(m'.getD i 0) = old.getD i 0 &&& ~~~(m'.getD i 0)

/-! ## Whole-machine rules -/

/-- R99, the table of outcomes: what each command leaves in `crc` and `acc`, and which transactions it issues. -/
def Obligations.StateAfterEachOutcome : Prop :=
  ∀ (s : State) (c : Command), s.Takes c → s.resetLine = [] →
    ∃ t, step s = .next t ∧
    match decode c with
    | .error _ =>
      t.crc = s.crc ∧ t.acc = .idle ∧ t.history = s.history ∧
        ∃ st, (st = .illegalCommand ∨ st = .invalidConfiguration) ∧ t.responses = s.responses ++ [⟨st, []⟩]
    | .ok .crcInit =>
      t.crc = 0xFFFF ∧ t.acc = .idle ∧ t.history = s.history ∧ t.responses = s.responses ++ [⟨.ok, []⟩]
    | .ok (.crcUpdate d) =>
      t.crc = crcStep s.crc d ∧ t.acc = .idle ∧ t.history = s.history ∧ t.responses = s.responses ++ [⟨.ok, []⟩]
    | .ok .crcRead =>
      t.crc = s.crc ∧ t.acc = .idle ∧ t.history = s.history ∧ t.responses = s.responses ++ [⟨.ok, crcBytes s.crc⟩]
    | .ok (.regRead n ra) =>
      t.crc = s.crc ∧ t.acc = .idle ∧ ∃ a r, t.history = s.history ++ [.rd ra n a] ∧
        t.responses = s.responses ++ [r] ∧ (r.status = .ok ∨ ∃ k, r.status = .busError k .read)
    | .ok (.regWrite _ wa data) =>
      t.crc = s.crc ∧ t.acc = .idle ∧ ∃ a r, t.history = s.history ++ [.wr wa data a] ∧
        t.responses = s.responses ++ [r] ∧ (r.status = .ok ∨ ∃ k, r.status = .busError k .write)
    | .ok (.regRmw n ra wa mask value) =>
      t.crc = s.crc ∧
      ((t.acc = .idle ∧ ∃ k, t.history = s.history ++ [.rd ra n (.err k)] ∧
          t.responses = s.responses ++ [⟨.busError k .read, []⟩]) ∨
        ∃ u old a r, step t = .next u ∧ u.crc = s.crc ∧ u.acc = .idle ∧ t.responses = s.responses ∧
          u.history = s.history ++ [.rd ra n (.ok old), .wr wa (merge old mask value) a] ∧
          u.responses = s.responses ++ [r] ∧ (r.status = .ok ∨ ∃ k, r.status = .busError k .write))

/-- R101: after any response the unit is idle, and no error is sticky: what a step does depends on no response given
and no transaction made before (10_state.md section 1: nothing else persists from one command to the next). -/
def Obligations.NothingButCrcAndAccPersists : Prop :=
  (∀ s t : State, step s = .next t → t.responses ≠ s.responses → t.acc = .idle) ∧
  ∀ s t : State, step { s with history := [], responses := [] } = .next t →
    step s = .next { t with history := s.history ++ t.history, responses := s.responses ++ t.responses }

/-- R44: one transaction at most a step, in issue order; a step takes at most one command and gives at most one
response, and takes back nothing it has done. -/
def Obligations.TransactionsAreInIssueOrder : Prop :=
  ∀ s t : State, step s = .next t →
    (∃ es rs, t.history = s.history ++ es ∧ es.length ≤ 1 ∧ t.responses = s.responses ++ rs ∧ rs.length ≤ 1) ∧
    (t.port = s.port ∨ (s.acc = .idle ∧ ∃ c, s.port = c :: t.port))

/-- Every command, legal or not, gets exactly one response (30_encoding.md section 6), one that fits it (60_exceptions.md
section 1), in the order of issue (20_memory.md section 6), within two steps a command (70_reset_and_hazards.md section
4, decision D2), and leaves `crc` as the CRC commands make it (10_state.md section 2). That every command ends rests on
every transaction being answered (log entry 10, DEDUCED; decision D34). That the commands to come are the list `port`
and that waiting is a step are the model's choices (log entries 1 and 2). -/
def Obligations.EveryCommandGetsOneResponse : Prop :=
  ∀ s : State, s.acc = .idle → s.resetLine = [] →
    ∃ t rs, Sys2Proof.core.run (2 * s.port.length) s = .next t ∧ t.acc = .idle ∧ t.port = [] ∧
      t.responses = s.responses ++ rs ∧ List.Forall₂ ResponseFits s.port rs ∧ t.crc = crcAfter s.crc s.port

/-- The unit never retries: over all the host's commands, the writes to an address are at most the commands that name
it as their write address (20_memory.md section 5; so a trigger of `0xC1` is written at most once a command). -/
def Obligations.WritesAreNeverRepeated : Prop :=
  ∀ (s : State) (a : Byte) (k : Nat), s.acc = .idle →
    ∃ t, Sys2Proof.core.run k s = .next t ∧
      writesTo a t.history ≤ writesTo a s.history + writeCommands a s.port

/-- The invariant holds after reset. It rests on the reset value of `acc`, the spec's own decision D9 (10_state.md section
4, 70_reset_and_hazards.md section 1), and on the history and the responses being empty in `State.reset`, the model's
choice (log entry 7, DESIGN CHOICE). -/
def Obligations.ResetMeetsTheInvariant : Prop := State.reset.Inv

/-- Every step keeps the invariant: `acc` records bytes of its width (10_state.md section 4), an owed write follows the
read it merges, transactions and responses have the shapes the spec gives them (20_memory.md section 5,
60_exceptions.md section 1). -/
def Obligations.EveryStepKeepsTheInvariant : Prop :=
  ∀ s t : State, s.Inv → step s = .next t → t.Inv

/-! ## What a host reads in the device's bytes -/

/-- R31: the mode codes, and every other byte is unknown. -/
def Obligations.ModeCodes : Prop :=
  DeviceMode.ofByte 0xFF = .standby ∧ DeviceMode.ofByte 0x01 = .testPattern ∧ DeviceMode.ofByte 0x06 = .externalPrint ∧
  ∀ b : Byte, b ≠ 0xFF → b ≠ 0x01 → b ≠ 0x06 → DeviceMode.ofByte b = .unknown b

/-- R32: the dark/light-frame block is the print-settings byte and two big-endian counts; the trigger command of
95_test_vectors.md P3 keeps the print-settings byte the device holds and writes exactly that block to `0xC1`. -/
def Obligations.ExposurePayloadIsBigEndian : Prop :=
  (∀ (p : Byte) (d e : BitVec 16),
    exposurePayload p d e = [p, d.extractLsb' 8 8, d.extractLsb' 0 8, e.extractLsb' 8 8, e.extractLsb' 0 8] ∧
    (exposurePayload p d e).length = 5) ∧
  exposurePayload 0x37 32 512 = [0x37, 0x00, 0x20, 0x02, 0x00] ∧
  ∀ (s : State) (d e : BitVec 16) (b : Vector Byte 5), s.acc = .idle → s.nextAnswer = .ok b →
    ∃ t, exec (exposureTrigger d e) s = .next t ∧
      t.acc = .rmwWrite 0xC1 5 b.toList (exposurePayload (b.toList.getD 0 0) d e)

/-- The registers' addresses and widths as used (20_memory.md section 2; four widths are decision D32); the set-up
sequence writes them in the order of 70_reset_and_hazards.md section 2, and no step of it triggers an exposure. -/
def Obligations.DeviceRegisterMap : Prop :=
  ([ .modeSelect, .fpgaControl, .activeBufferIndex, .videoInterface, .darkLightFrame, .externalPrintConfig,
      .crcResult ] : List DeviceRegister).map (fun r => (r.writeAddr, r.readAddr, r.width)) =
    [ (some 0x05, 0x06, 1), (some 0xCA, 0xCB, 1), (some 0xC5, 0xC6, 1), (some 0xC3, 0xC4, 1), (some 0xC1, 0xC2, 5),
      (some 0xA8, 0xA9, 2), (none, 0xCE, 2) ] ∧
  (∀ m : Byte, setupSequence m =
    [ .regWrite 1 0x05 [0xFF], .regRmw 1 0xCB 0xCA [0x04] [0x04], .regRmw 1 0xC6 0xC5 [m] [0x00],
      .regWrite 2 0xA8 [0x00, 0x00] ]) ∧
  ∀ m : Byte, ∀ i ∈ setupSequence m, i.WellFormed ∧ triggersExposure i = false
end

