-- ==== Sys2Proof/Laws/Crc.lean ====
section
/-! SUPPORT. The CRC step as operations on bits: one turn of the loop in closed form, and its linearity. -/

namespace Sys2Proof.Machine

/-- Shift and conditional subtraction as one XOR. -/
theorem crcShift_eq (t : CrcWord) : crcShift t = (t <<< 1) ^^^ (if t.getLsbD 15 then Config.crcPoly else 0) := by
  unfold crcShift
  split <;> simp

/-- One turn of the loop, bit by bit: each bit is the one below it, bits 0, 2 and 15 also take bit 15. -/
theorem crcShift_getLsbD (t : CrcWord) (i : Nat) (hi : i < 16) :
    (crcShift t).getLsbD i =
      ((decide (0 < i) && t.getLsbD (i - 1)) ^^ (t.getLsbD 15 && decide (i = 0 ∨ i = 2 ∨ i = 15))) := by
  have hp : Config.crcPoly.getLsbD i = decide (i = 0 ∨ i = 2 ∨ i = 15) := by
    revert i
    decide
  have hs : (t <<< 1).getLsbD i = (decide (0 < i) && t.getLsbD (i - 1)) := by
    rw [BitVec.getLsbD_shiftLeft]
    by_cases h : 0 < i
    · have : ¬ i < 1 := by omega
      simp [hi, h, this]
    · have : i < 1 := by omega
      simp [h, this]
  rw [crcShift_eq, BitVec.getLsbD_xor, hs]
  cases t.getLsbD 15 <;> simp [hp]

@[simp] theorem crcShift_xor (t u : CrcWord) : crcShift (t ^^^ u) = crcShift t ^^^ crcShift u := by
  apply BitVec.eq_of_getLsbD_eq
  intro i hi
  rw [BitVec.getLsbD_xor, crcShift_getLsbD _ _ hi, crcShift_getLsbD _ _ hi, crcShift_getLsbD _ _ hi,
    BitVec.getLsbD_xor, BitVec.getLsbD_xor]
  cases decide (0 < i) <;> cases decide (i = 0 ∨ i = 2 ∨ i = 15) <;>
    cases t.getLsbD (i - 1) <;> cases u.getLsbD (i - 1) <;> cases t.getLsbD 15 <;> cases u.getLsbD 15 <;> rfl

@[simp] theorem crcShifts_xor (k : Nat) (t u : CrcWord) :
    crcShifts k (t ^^^ u) = crcShifts k t ^^^ crcShifts k u := by
  induction k generalizing t u with
  | zero => rfl
  | succ k ih => simp only [crcShifts, crcShift_xor, ih]

/-- `compute` of a longer sequence goes on from `compute` of the shorter. -/
theorem compute_append (s t : List Byte) : compute (s ++ t) = t.foldl crcStep (compute s) := by
  unfold compute
  rw [List.foldl_append]

end Sys2Proof.Machine
end

