-- ==== Sys2Proof/Laws/Encoding.lean ====
section
/-! SUPPORT. The fields of a packed word, and what decoding a command says of it. -/

namespace Sys2Proof

open Machine

/-! ### Fields of a packed word -/

@[simp] theorem opField_packWord (op n : BitVec 4) (ra wa d : Byte) : opField (packWord op n ra wa d) = op := by
  unfold opField packWord
  ext i hi
  have : i = 0 ∨ i = 1 ∨ i = 2 ∨ i = 3 := by omega
  rcases this with rfl | rfl | rfl | rfl <;> simp

@[simp] theorem widthField_packWord (op n : BitVec 4) (ra wa d : Byte) :
    widthField (packWord op n ra wa d) = n.toNat := by
  unfold widthField packWord
  congr 1
  ext i hi
  have : i = 0 ∨ i = 1 ∨ i = 2 ∨ i = 3 := by omega
  rcases this with rfl | rfl | rfl | rfl <;> simp

@[simp] theorem readAddrField_packWord (op n : BitVec 4) (ra wa d : Byte) :
    readAddrField (packWord op n ra wa d) = ra := by
  unfold readAddrField packWord
  ext i hi
  have : i = 0 ∨ i = 1 ∨ i = 2 ∨ i = 3 ∨ i = 4 ∨ i = 5 ∨ i = 6 ∨ i = 7 := by omega
  rcases this with rfl | rfl | rfl | rfl | rfl | rfl | rfl | rfl <;> simp

@[simp] theorem writeAddrField_packWord (op n : BitVec 4) (ra wa d : Byte) :
    writeAddrField (packWord op n ra wa d) = wa := by
  unfold writeAddrField packWord
  ext i hi
  have : i = 0 ∨ i = 1 ∨ i = 2 ∨ i = 3 ∨ i = 4 ∨ i = 5 ∨ i = 6 ∨ i = 7 := by omega
  rcases this with rfl | rfl | rfl | rfl | rfl | rfl | rfl | rfl <;> simp

@[simp] theorem dataField_packWord (op n : BitVec 4) (ra wa d : Byte) : dataField (packWord op n ra wa d) = d := by
  unfold dataField packWord
  ext i hi
  have : i = 0 ∨ i = 1 ∨ i = 2 ∨ i = 3 ∨ i = 4 ∨ i = 5 ∨ i = 6 ∨ i = 7 := by omega
  rcases this with rfl | rfl | rfl | rfl | rfl | rfl | rfl | rfl <;> simp

/-- A word is its five fields. -/
theorem packWord_fields (w : CmdWord) :
    packWord (opField w) (w.extractLsb' 24 4) (readAddrField w) (writeAddrField w) (dataField w) = w := by
  unfold opField readAddrField writeAddrField dataField packWord
  ext i hi
  simp only [BitVec.getElem_or, BitVec.getElem_shiftLeft, BitVec.getElem_setWidth,
    BitVec.getLsbD_extractLsb']
  interval_cases i <;> simp [BitVec.getLsbD_eq_getElem]

/-- A legal width fits the field `N`. -/
theorem width_fits {n : Nat} (h : LegalWidth n) : (BitVec.ofNat 4 n).toNat = n := by
  have : n ≤ 5 := h.2
  rw [BitVec.toNat_ofNat, Nat.mod_eq_of_lt (by omega)]

/-! ### Operations -/

@[simp] theorem Opcode.ofField_field (o : Opcode) : Opcode.ofField o.field = some o := by
  cases o <;> rfl

/-- An operation is read from exactly its own field value (R53). -/
theorem Opcode.ofField_eq_some {op : BitVec 4} {o : Opcode} : Opcode.ofField op = some o ↔ op = o.field := by
  constructor
  · revert op o
    decide
  · rintro rfl
    exact Opcode.ofField_field o

/-- A command decodes exactly when it passes the four checks of R59. -/
theorem decode_eq_ok {c : Command} {i : Instr} :
    decode c = .ok i ↔ ∃ o : Opcode, opField c.word = o.field ∧ c.word &&& o.mask = o.pattern ∧
      (o.hasWidth = true → LegalWidth (widthField c.word)) ∧
      c.ops.length = o.operandLength (widthField c.word) ∧ i = o.assemble c := by
  constructor
  · intro h
    unfold decode at h
    split at h
    · cases h
    · rename_i o ho
      unfold decodeAs at h
      split at h
      · cases h
      · split at h
        · cases h
        · split at h
          · cases h
          · rename_i hm hw hl
            cases h
            exact ⟨o, Opcode.ofField_eq_some.mp ho, not_not.mp hm, fun hh => by_contra fun hc => hw ⟨hh, hc⟩,
              not_not.mp hl, rfl⟩
  · rintro ⟨o, ho, hm, hw, hl, rfl⟩
    unfold decode
    rw [Opcode.ofField_eq_some.mpr ho]
    simp only [decodeAs]
    rw [if_neg (not_not.mpr hm), if_neg (fun h => h.2 (hw h.1)), if_neg (not_not.mpr hl)]

end Sys2Proof
end

