-- ==== Sys2Proof/Laws/State.lean ====
section
/-! SUPPORT. One lemma for each field of State under each of its updates. -/

namespace Sys2Proof.Machine

/-! ### `setCrc` -/

@[simp] theorem State.setCrc_crc (s : State) (v : CrcWord) : (s.setCrc v).crc = v := rfl
@[simp] theorem State.setCrc_acc (s : State) (v : CrcWord) : (s.setCrc v).acc = s.acc := rfl
@[simp] theorem State.setCrc_port (s : State) (v : CrcWord) : (s.setCrc v).port = s.port := rfl
@[simp] theorem State.setCrc_resetLine (s : State) (v : CrcWord) : (s.setCrc v).resetLine = s.resetLine := rfl
@[simp] theorem State.setCrc_answers (s : State) (v : CrcWord) : (s.setCrc v).answers = s.answers := rfl
@[simp] theorem State.setCrc_draws (s : State) (v : CrcWord) : (s.setCrc v).draws = s.draws := rfl
@[simp] theorem State.setCrc_history (s : State) (v : CrcWord) : (s.setCrc v).history = s.history := rfl
@[simp] theorem State.setCrc_responses (s : State) (v : CrcWord) : (s.setCrc v).responses = s.responses := rfl

/-! ### `setAcc` -/

@[simp] theorem State.setAcc_crc (s : State) (a : Acc) : (s.setAcc a).crc = s.crc := rfl
@[simp] theorem State.setAcc_acc (s : State) (a : Acc) : (s.setAcc a).acc = a := rfl
@[simp] theorem State.setAcc_port (s : State) (a : Acc) : (s.setAcc a).port = s.port := rfl
@[simp] theorem State.setAcc_resetLine (s : State) (a : Acc) : (s.setAcc a).resetLine = s.resetLine := rfl
@[simp] theorem State.setAcc_answers (s : State) (a : Acc) : (s.setAcc a).answers = s.answers := rfl
@[simp] theorem State.setAcc_draws (s : State) (a : Acc) : (s.setAcc a).draws = s.draws := rfl
@[simp] theorem State.setAcc_history (s : State) (a : Acc) : (s.setAcc a).history = s.history := rfl
@[simp] theorem State.setAcc_responses (s : State) (a : Acc) : (s.setAcc a).responses = s.responses := rfl

/-! ### `respond` -/

@[simp] theorem State.respond_crc (s : State) (st : Status) (data : List Byte) : (s.respond st data).crc = s.crc := rfl
@[simp] theorem State.respond_acc (s : State) (st : Status) (data : List Byte) : (s.respond st data).acc = s.acc := rfl
@[simp] theorem State.respond_port (s : State) (st : Status) (data : List Byte) : (s.respond st data).port = s.port := rfl
@[simp] theorem State.respond_resetLine (s : State) (st : Status) (data : List Byte) : (s.respond st data).resetLine = s.resetLine := rfl
@[simp] theorem State.respond_answers (s : State) (st : Status) (data : List Byte) : (s.respond st data).answers = s.answers := rfl
@[simp] theorem State.respond_draws (s : State) (st : Status) (data : List Byte) : (s.respond st data).draws = s.draws := rfl
@[simp] theorem State.respond_history (s : State) (st : Status) (data : List Byte) : (s.respond st data).history = s.history := rfl
@[simp] theorem State.respond_responses (s : State) (st : Status) (data : List Byte) : (s.respond st data).responses = s.responses ++ [⟨st, data⟩] := rfl

/-! ### `record` -/

@[simp] theorem State.record_crc (s : State) (e : BusEvent) : (s.record e).crc = s.crc := rfl
@[simp] theorem State.record_acc (s : State) (e : BusEvent) : (s.record e).acc = s.acc := rfl
@[simp] theorem State.record_port (s : State) (e : BusEvent) : (s.record e).port = s.port := rfl
@[simp] theorem State.record_resetLine (s : State) (e : BusEvent) : (s.record e).resetLine = s.resetLine := rfl
@[simp] theorem State.record_answers (s : State) (e : BusEvent) : (s.record e).answers = s.answers := rfl
@[simp] theorem State.record_draws (s : State) (e : BusEvent) : (s.record e).draws = s.draws := rfl
@[simp] theorem State.record_history (s : State) (e : BusEvent) : (s.record e).history = s.history ++ [e] := rfl
@[simp] theorem State.record_responses (s : State) (e : BusEvent) : (s.record e).responses = s.responses := rfl

/-! ### `applyReset` -/

@[simp] theorem State.applyReset_crc (s : State) : (s.applyReset).crc = Config.crcSeed := rfl
@[simp] theorem State.applyReset_acc (s : State) : (s.applyReset).acc = .idle := rfl
@[simp] theorem State.applyReset_port (s : State) : (s.applyReset).port = s.port := rfl
@[simp] theorem State.applyReset_resetLine (s : State) : (s.applyReset).resetLine = s.resetLine := rfl
@[simp] theorem State.applyReset_answers (s : State) : (s.applyReset).answers = s.answers := rfl
@[simp] theorem State.applyReset_draws (s : State) : (s.applyReset).draws = s.draws := rfl
@[simp] theorem State.applyReset_history (s : State) : (s.applyReset).history = s.history := rfl
@[simp] theorem State.applyReset_responses (s : State) : (s.applyReset).responses = s.responses := rfl

/-! ### `takeCommand` -/

@[simp] theorem State.takeCommand_crc (s : State) : (s.takeCommand).crc = s.crc := rfl
@[simp] theorem State.takeCommand_acc (s : State) : (s.takeCommand).acc = s.acc := rfl
@[simp] theorem State.takeCommand_port (s : State) : (s.takeCommand).port = s.port.tail := rfl
@[simp] theorem State.takeCommand_resetLine (s : State) : (s.takeCommand).resetLine = s.resetLine := rfl
@[simp] theorem State.takeCommand_answers (s : State) : (s.takeCommand).answers = s.answers := rfl
@[simp] theorem State.takeCommand_draws (s : State) : (s.takeCommand).draws = s.draws := rfl
@[simp] theorem State.takeCommand_history (s : State) : (s.takeCommand).history = s.history := rfl
@[simp] theorem State.takeCommand_responses (s : State) : (s.takeCommand).responses = s.responses := rfl

/-! ### `passReset` -/

@[simp] theorem State.passReset_crc (s : State) : (s.passReset).crc = s.crc := rfl
@[simp] theorem State.passReset_acc (s : State) : (s.passReset).acc = s.acc := rfl
@[simp] theorem State.passReset_port (s : State) : (s.passReset).port = s.port := rfl
@[simp] theorem State.passReset_resetLine (s : State) : (s.passReset).resetLine = s.resetLine.tail := rfl
@[simp] theorem State.passReset_answers (s : State) : (s.passReset).answers = s.answers := rfl
@[simp] theorem State.passReset_draws (s : State) : (s.passReset).draws = s.draws := rfl
@[simp] theorem State.passReset_history (s : State) : (s.passReset).history = s.history := rfl
@[simp] theorem State.passReset_responses (s : State) : (s.passReset).responses = s.responses := rfl

/-! ### `taken` -/

@[simp] theorem State.taken_crc (s : State) : (s.taken).crc = s.crc := rfl
@[simp] theorem State.taken_acc (s : State) : (s.taken).acc = s.acc := rfl
@[simp] theorem State.taken_port (s : State) : (s.taken).port = s.port.tail := rfl
@[simp] theorem State.taken_resetLine (s : State) : (s.taken).resetLine = s.resetLine.tail := rfl
@[simp] theorem State.taken_answers (s : State) : (s.taken).answers = s.answers := rfl
@[simp] theorem State.taken_draws (s : State) : (s.taken).draws = s.draws := rfl
@[simp] theorem State.taken_history (s : State) : (s.taken).history = s.history := rfl
@[simp] theorem State.taken_responses (s : State) : (s.taken).responses = s.responses := rfl

/-! ### `dropAnswer`: only the answers still to come, or the draw counter, change -/

theorem State.dropAnswer_of_nil {s : State} (h : s.answers = []) : s.dropAnswer = { s with draws := s.draws + 1 } := by
  unfold State.dropAnswer
  rw [h]

theorem State.dropAnswer_of_cons {s : State} {a : BusAnswer} {rest : List BusAnswer} (h : s.answers = a :: rest) :
    s.dropAnswer = { s with answers := rest } := by
  unfold State.dropAnswer
  rw [h]

theorem State.nextAnswer_of_cons {s : State} {a : BusAnswer} {rest : List BusAnswer} (h : s.answers = a :: rest) :
    s.nextAnswer = a := by
  unfold State.nextAnswer
  rw [h]

theorem State.nextAnswer_of_nil {s : State} (h : s.answers = []) : s.nextAnswer = Config.freeAnswer s.draws := by
  unfold State.nextAnswer
  rw [h]

@[simp] theorem State.dropAnswer_crc (s : State) : s.dropAnswer.crc = s.crc := by
  unfold State.dropAnswer
  split <;> rfl

@[simp] theorem State.dropAnswer_acc (s : State) : s.dropAnswer.acc = s.acc := by
  unfold State.dropAnswer
  split <;> rfl

@[simp] theorem State.dropAnswer_port (s : State) : s.dropAnswer.port = s.port := by
  unfold State.dropAnswer
  split <;> rfl

@[simp] theorem State.dropAnswer_resetLine (s : State) : s.dropAnswer.resetLine = s.resetLine := by
  unfold State.dropAnswer
  split <;> rfl

@[simp] theorem State.dropAnswer_history (s : State) : s.dropAnswer.history = s.history := by
  unfold State.dropAnswer
  split <;> rfl

@[simp] theorem State.dropAnswer_responses (s : State) : s.dropAnswer.responses = s.responses := by
  unfold State.dropAnswer
  split <;> rfl

/-! ### The composite updates -/

@[simp] theorem State.respondError_eq (s : State) (st : Status) (data : List Byte) :
    s.respondError st data = s.respond st data := rfl

@[simp] theorem State.busRead_eq (s : State) (a : Byte) (n : Nat) :
    s.busRead a n = s.dropAnswer.record (.rd a n (readAnswer n s.nextAnswer)) := rfl

@[simp] theorem State.busWrite_eq (s : State) (a : Byte) (bytes : List Byte) :
    s.busWrite a bytes = s.dropAnswer.record (.wr a bytes (writeAnswer s.nextAnswer)) := rfl

@[simp] theorem State.recordCut_none (s : State) : s.recordCut none = s := rfl

@[simp] theorem State.recordCut_some (s : State) (e : BusEvent) : s.recordCut (some e) = s.record e := rfl

theorem State.refused_eq (s : State) (st : Status) : s.refused st = s.taken.respond st [] := rfl

theorem State.passReset_takeCommand (s : State) : s.passReset.takeCommand = s.taken := rfl

end Sys2Proof.Machine
end

