-- ==== Sys2Proof/Laws/Ops.lean ====
section
/-! SUPPORT. One lemma for each shared operation: what it can do. -/

namespace Sys2Proof.Machine

/-! ### Acceptance and form -/

@[simp] theorem State.accept_idle {s : State} (h : s.acc = .idle) (f : State → State) : s.accept f = .next (f s) := by
  unfold State.accept
  rw [h]

@[simp] theorem State.accept_busy {s : State} (h : s.acc ≠ .idle) (f : State → State) : s.accept f = .next s := by
  unfold State.accept
  cases ha : s.acc with
  | idle => exact absurd ha h
  | rmwWrite wa n old new => rfl

theorem State.requireForm_of (s : State) {p : Prop} [Decidable p] (h : p) (f : State → State) :
    s.requireForm p f = f s := if_pos h

theorem State.requireForm_of_not (s : State) {p : Prop} [Decidable p] (h : ¬ p) (f : State → State) :
    s.requireForm p f = s.respond .invalidConfiguration [] := if_neg h

/-! ### Answers -/

@[simp] theorem readAnswer_ok (n : Nat) (b : Vector Byte 5) : readAnswer n (.ok b) = .ok (b.toList.take n) := rfl

@[simp] theorem readAnswer_err (n : Nat) (k : BusErrorKind) : readAnswer n (.err k) = .err k := rfl

@[simp] theorem writeAnswer_ok (b : Vector Byte 5) : writeAnswer (.ok b) = .ok := rfl

@[simp] theorem writeAnswer_err (k : BusErrorKind) : writeAnswer (.err k) = .err k := rfl

/-- An answer to a read of a legal width has exactly that many bytes (41_regaccess.md R81). -/
theorem length_answer_take (b : Vector Byte 5) {n : Nat} (h : LegalWidth n) : (b.toList.take n).length = n := by
  have : n ≤ 5 := h.2
  simp [this]

/-- A read answers `Ok` of that many bytes, or an error. -/
theorem readAnswer_cases {n : Nat} (h : LegalWidth n) (a : BusAnswer) :
    (∃ bytes, readAnswer n a = .ok bytes ∧ bytes.length = n) ∨ ∃ k, readAnswer n a = .err k := by
  cases a with
  | ok b => exact .inl ⟨_, rfl, length_answer_take b h⟩
  | err k => exact .inr ⟨k, rfl⟩

/-! ### Merge -/

@[simp] theorem merge_nil_left (mask value : List Byte) : merge [] mask value = [] := by
  cases mask <;> cases value <;> rfl

@[simp] theorem merge_cons (o m v : Byte) (os ms vs : List Byte) :
    merge (o :: os) (m :: ms) (v :: vs) = mergeByte o m v :: merge os ms vs := rfl

/-- The merge of three sequences of one length has that length. -/
theorem length_merge {old mask value : List Byte} (hm : mask.length = old.length) (hv : value.length = old.length) :
    (merge old mask value).length = old.length := by
  induction old generalizing mask value with
  | nil => simp
  | cons o os ih =>
    match mask, value with
    | m :: ms, v :: vs =>
      simp at hm hv
      simp [ih hm hv]

/-! ### The instructions: what `exec` answers -/

theorem exec_busy {s : State} (h : s.acc ≠ .idle) (i : Instr) : exec i s = .next s := by
  cases i <;> simp only [exec, execCrcInit, execCrcUpdate, execCrcRead, execRegRead, execRegWrite, execRegRmw,
    State.accept_busy h]

theorem exec_crcInit {s : State} (h : s.acc = .idle) :
    exec .crcInit s = .next ((s.setCrc Config.crcSeed).respond .ok []) := by
  simp only [exec, execCrcInit, State.accept_idle h]

theorem exec_crcUpdate {s : State} (h : s.acc = .idle) (d8 : Byte) :
    exec (.crcUpdate d8) s = .next ((s.setCrc (crcStep s.crc d8)).respond .ok []) := by
  simp only [exec, execCrcUpdate, State.accept_idle h]

theorem exec_crcRead {s : State} (h : s.acc = .idle) :
    exec .crcRead s = .next (s.respond .ok (crcBytes s.crc)) := by
  simp only [exec, execCrcRead, State.accept_idle h]

theorem exec_regRead_ok {s : State} (h : s.acc = .idle) {n : Nat} (hn : LegalWidth n) (ra : Byte) {b : Vector Byte 5}
    (ha : s.nextAnswer = .ok b) :
    exec (.regRead n ra) s =
      .next ((s.dropAnswer.record (.rd ra n (.ok (b.toList.take n)))).respond .ok (b.toList.take n)) := by
  simp only [exec, execRegRead, State.accept_idle h, State.requireForm_of s hn, ha, readAnswer_ok, State.busRead_eq]

theorem exec_regRead_err {s : State} (h : s.acc = .idle) {n : Nat} (hn : LegalWidth n) (ra : Byte) {k : BusErrorKind}
    (ha : s.nextAnswer = .err k) :
    exec (.regRead n ra) s =
      .next ((s.dropAnswer.record (.rd ra n (.err k))).respond (.busError k .read) []) := by
  simp only [exec, execRegRead, State.accept_idle h, State.requireForm_of s hn, ha, readAnswer_err, State.busRead_eq,
    State.respondError_eq]

theorem exec_regWrite_ok {s : State} (h : s.acc = .idle) {n : Nat} (wa : Byte) {data : List Byte}
    (hf : LegalWidth n ∧ data.length = n) {b : Vector Byte 5} (ha : s.nextAnswer = .ok b) :
    exec (.regWrite n wa data) s = .next ((s.dropAnswer.record (.wr wa data .ok)).respond .ok []) := by
  simp only [exec, execRegWrite, State.accept_idle h, State.requireForm_of s hf, ha, writeAnswer_ok, State.busWrite_eq]

theorem exec_regWrite_err {s : State} (h : s.acc = .idle) {n : Nat} (wa : Byte) {data : List Byte}
    (hf : LegalWidth n ∧ data.length = n) {k : BusErrorKind} (ha : s.nextAnswer = .err k) :
    exec (.regWrite n wa data) s =
      .next ((s.dropAnswer.record (.wr wa data (.err k))).respond (.busError k .write) []) := by
  simp only [exec, execRegWrite, State.accept_idle h, State.requireForm_of s hf, ha, writeAnswer_err,
    State.busWrite_eq, State.respondError_eq]

theorem exec_regRmw_ok {s : State} (h : s.acc = .idle) {n : Nat} (ra wa : Byte) {mask value : List Byte}
    (hf : LegalWidth n ∧ mask.length = n ∧ value.length = n) {b : Vector Byte 5} (ha : s.nextAnswer = .ok b) :
    exec (.regRmw n ra wa mask value) s =
      .next ((s.dropAnswer.record (.rd ra n (.ok (b.toList.take n)))).setAcc
        (.rmwWrite wa n (b.toList.take n) (merge (b.toList.take n) mask value))) := by
  simp only [exec, execRegRmw, State.accept_idle h, State.requireForm_of s hf, ha, readAnswer_ok, State.busRead_eq]

theorem exec_regRmw_err {s : State} (h : s.acc = .idle) {n : Nat} (ra wa : Byte) {mask value : List Byte}
    (hf : LegalWidth n ∧ mask.length = n ∧ value.length = n) {k : BusErrorKind} (ha : s.nextAnswer = .err k) :
    exec (.regRmw n ra wa mask value) s =
      .next ((s.dropAnswer.record (.rd ra n (.err k))).respond (.busError k .read) []) := by
  simp only [exec, execRegRmw, State.accept_idle h, State.requireForm_of s hf, ha, readAnswer_err, State.busRead_eq,
    State.respondError_eq]

/-- An instruction that is not well formed gets `INVALID_CONFIGURATION` and does nothing (log entry 11). -/
theorem exec_malformed {s : State} (h : s.acc = .idle) {i : Instr} (hi : ¬ i.WellFormed) :
    exec i s = .next (s.respond .invalidConfiguration []) := by
  cases i with
  | crcInit => exact absurd rfl hi
  | crcUpdate d => exact absurd rfl hi
  | crcRead => exact absurd rfl hi
  | regRead n ra =>
    have hf : ¬ LegalWidth n := fun hf => hi (decide_eq_true hf)
    simp only [exec, execRegRead, State.accept_idle h, State.requireForm_of_not s hf]
  | regWrite n wa data =>
    have hf : ¬ (LegalWidth n ∧ data.length = n) := fun hf => hi (decide_eq_true hf)
    simp only [exec, execRegWrite, State.accept_idle h, State.requireForm_of_not s hf]
  | regRmw n ra wa mask value =>
    have hf : ¬ (LegalWidth n ∧ mask.length = n ∧ value.length = n) := fun hf => hi (decide_eq_true hf)
    simp only [exec, execRegRmw, State.accept_idle h, State.requireForm_of_not s hf]

/-- The owed write, answered `Ok`. -/
theorem rmwWriteStep_ok {s : State} (wa : Byte) (old new : List Byte) {b : Vector Byte 5} (ha : s.nextAnswer = .ok b) :
    s.rmwWriteStep wa old new =
      ((s.dropAnswer.record (.wr wa new .ok)).setAcc .idle).respond .ok (old ++ new) := by
  simp only [State.rmwWriteStep, ha, writeAnswer_ok, State.busWrite_eq]

/-- The owed write, answered with an error. -/
theorem rmwWriteStep_err {s : State} (wa : Byte) (old new : List Byte) {k : BusErrorKind} (ha : s.nextAnswer = .err k) :
    s.rmwWriteStep wa old new =
      ((s.dropAnswer.record (.wr wa new (.err k))).setAcc .idle).respond (.busError k .write) (old ++ new) := by
  simp only [State.rmwWriteStep, ha, writeAnswer_err, State.busWrite_eq, State.respondError_eq]

end Sys2Proof.Machine
end

