-- ==== Sys2Proof/Laws/PerInstr.lean ====
section
/-! SUPPORT. One lemma per instruction: the operand bytes of its encoding are as many as its command word announces
(spec/30_encoding.md R51, R58). -/

namespace Sys2Proof.Laws.EncodedLength

open Sys2Proof.Machine

/-- The operands of the encoded instruction have the length a decoder reads from the word. -/
def Statement (i : Instr) : Prop :=
  i.WellFormed → (encode i).ops.length = wordOperandLength (encode i).word

theorem crcInit : Statement .crcInit := fun _ => rfl

theorem crcUpdate (d8 : Byte) : Statement (.crcUpdate d8) := by
  intro _
  simp only [encode, wordOperandLength, opField_packWord]
  rfl

theorem crcRead : Statement .crcRead := fun _ => rfl

theorem regRead (n : Nat) (ra : Byte) : Statement (.regRead n ra) := by
  intro _
  simp only [encode, wordOperandLength, opField_packWord]
  rfl

theorem regWrite (n : Nat) (wa : Byte) (data : List Byte) : Statement (.regWrite n wa data) := by
  intro h
  have hf : LegalWidth n ∧ data.length = n := of_decide_eq_true h
  have ho : Opcode.ofField 0x5 = some .regWrite := rfl
  simp only [encode, wordOperandLength, opField_packWord, ho, Opcode.operandLength, widthField_packWord,
    width_fits hf.1, hf.2]

theorem regRmw (n : Nat) (ra wa : Byte) (mask value : List Byte) : Statement (.regRmw n ra wa mask value) := by
  intro h
  have hf : LegalWidth n ∧ mask.length = n ∧ value.length = n := of_decide_eq_true h
  have ho : Opcode.ofField 0x6 = some .regRmw := rfl
  simp only [encode, wordOperandLength, opField_packWord, ho, Opcode.operandLength, widthField_packWord,
    width_fits hf.1, List.length_append, hf.2.1, hf.2.2]
  omega

end Sys2Proof.Laws.EncodedLength
end

