-- ==== Sys2Proof/Laws/Step.lean ====
section
/-! SUPPORT. What a step can do, said once. -/

namespace Sys2Proof.Machine

/-- A step with no reset in it is the unit's own. -/
theorem step_quiet {s : State} (h : s.resetNow = .quiet) : step s = s.passReset.unitStep := by
  unfold step
  rw [h]

theorem step_before {s : State} (h : s.resetNow = .before) : step s = .next s.passReset.applyReset := by
  unfold step
  rw [h]

theorem step_during {s : State} (h : s.resetNow = .during) : step s = .next s.passReset.cutStep := by
  unfold step
  rw [h]

/-! ### What the unit works on -/

theorem work_busy {s : State} {wa : Byte} {n : Nat} {old new : List Byte} (h : s.acc = .rmwWrite wa n old new) :
    s.work = .owedWrite wa old new := by
  unfold State.work
  rw [h]

theorem work_offered {s : State} {c : Command} (h : s.acc = .idle) (hp : s.port.head? = some c) :
    s.work = .offered c := by
  unfold State.work
  rw [h]
  cases hs : s.port with
  | nil => simp [hs] at hp
  | cons d ds =>
    simp [hs] at hp
    simp [hp]

theorem work_none {s : State} (h : s.acc = .idle) (hp : s.port = []) : s.work = .none := by
  unfold State.work
  rw [h, hp]

/-! ### The steps of the unit -/

/-- The owed write is issued, and the unit is idle again. -/
theorem step_owedWrite {s : State} {wa : Byte} {n : Nat} {old new : List Byte} (h : s.acc = .rmwWrite wa n old new)
    (hr : s.resetNow = .quiet) : step s = .next (s.passReset.rmwWriteStep wa old new) := by
  rw [step_quiet hr]
  unfold State.unitStep
  rw [work_busy (s := s.passReset) h]

/-- The command offered is taken and run. -/
theorem step_takes {s : State} {c : Command} (h : s.Takes c) : step s = s.taken.runCommand c := by
  rw [step_quiet h.2.1]
  unfold State.unitStep
  rw [work_offered (s := s.passReset) h.1 h.2.2]
  rfl

/-- Nothing is offered, and nothing but the reset schedule changes. -/
theorem step_waits {s : State} (h : s.acc = .idle) (hp : s.port = []) (hr : s.resetNow = .quiet) :
    step s = .next s.passReset := by
  rw [step_quiet hr]
  unfold State.unitStep
  rw [work_none (s := s.passReset) h hp]

theorem runCommand_ok {s : State} {c : Command} {i : Instr} (h : decode c = .ok i) : s.runCommand c = exec i s := by
  unfold State.runCommand
  rw [h]

theorem runCommand_error {s : State} {c : Command} {e : DecodeError} (h : decode c = .error e) :
    s.runCommand c = .next (s.respond (errorStatus e) []) := by
  unfold State.runCommand
  rw [h]
  rfl

/-- The five things a step can be: a reset in its place or inside it, the owed write, the command offered, or waiting. -/
theorem step_cases (s : State) :
    (s.resetNow = .before ∧ step s = .next s.passReset.applyReset) ∨
    (s.resetNow = .during ∧ step s = .next s.passReset.cutStep) ∨
    (s.resetNow = .quiet ∧ ∃ wa n old new, s.acc = .rmwWrite wa n old new ∧
      step s = .next (s.passReset.rmwWriteStep wa old new)) ∨
    (∃ c, s.Takes c ∧ step s = s.taken.runCommand c) ∨
    (s.resetNow = .quiet ∧ s.acc = .idle ∧ s.port = [] ∧ step s = .next s.passReset) := by
  cases hr : s.resetNow with
  | before => exact .inl ⟨rfl, step_before hr⟩
  | during => exact .inr (.inl ⟨rfl, step_during hr⟩)
  | quiet =>
    cases ha : s.acc with
    | rmwWrite wa n old new => exact .inr (.inr (.inl ⟨rfl, wa, n, old, new, rfl, step_owedWrite ha hr⟩))
    | idle =>
      cases hp : s.port with
      | nil => exact .inr (.inr (.inr (.inr ⟨rfl, rfl, rfl, step_waits ha hp hr⟩)))
      | cons c cs =>
        have ht : s.Takes c := ⟨ha, hr, by rw [hp]; rfl⟩
        exact .inr (.inr (.inr (.inl ⟨c, ht, step_takes ht⟩)))

/-- The unit's own steps on an instruction, said once for an idle unit: it is malformed and gets its response, it is a
CRC command, or it makes exactly one transaction. -/
theorem exec_cases {s : State} (h : s.acc = .idle) (i : Instr) :
    (¬ i.WellFormed ∧ exec i s = .next (s.respond .invalidConfiguration [])) ∨
    (i = .crcInit ∧ exec i s = .next ((s.setCrc Config.crcSeed).respond .ok [])) ∨
    (∃ d8, i = .crcUpdate d8 ∧ exec i s = .next ((s.setCrc (crcStep s.crc d8)).respond .ok [])) ∨
    (i = .crcRead ∧ exec i s = .next (s.respond .ok (crcBytes s.crc))) ∨
    (∃ n ra, i = .regRead n ra ∧ LegalWidth n ∧
      ((∃ bytes, bytes.length = n ∧
          exec i s = .next ((s.dropAnswer.record (.rd ra n (.ok bytes))).respond .ok bytes)) ∨
        ∃ k, exec i s = .next ((s.dropAnswer.record (.rd ra n (.err k))).respond (.busError k .read) []))) ∨
    (∃ n wa data, i = .regWrite n wa data ∧ LegalWidth n ∧ data.length = n ∧
      (exec i s = .next ((s.dropAnswer.record (.wr wa data .ok)).respond .ok []) ∨
        ∃ k, exec i s = .next ((s.dropAnswer.record (.wr wa data (.err k))).respond (.busError k .write) []))) ∨
    (∃ n ra wa mask value, i = .regRmw n ra wa mask value ∧ LegalWidth n ∧ mask.length = n ∧ value.length = n ∧
      ((∃ old, old.length = n ∧
          exec i s = .next ((s.dropAnswer.record (.rd ra n (.ok old))).setAcc
            (.rmwWrite wa n old (merge old mask value)))) ∨
        ∃ k, exec i s = .next ((s.dropAnswer.record (.rd ra n (.err k))).respond (.busError k .read) []))) := by
  by_cases hi : i.WellFormed
  · right
    cases i with
    | crcInit => exact .inl ⟨rfl, exec_crcInit h⟩
    | crcUpdate d8 => exact .inr (.inl ⟨d8, rfl, exec_crcUpdate h d8⟩)
    | crcRead => exact .inr (.inr (.inl ⟨rfl, exec_crcRead h⟩))
    | regRead n ra =>
      have hf : LegalWidth n := of_decide_eq_true hi
      refine .inr (.inr (.inr (.inl ⟨n, ra, rfl, hf, ?_⟩)))
      cases ha : s.nextAnswer with
      | ok b => exact .inl ⟨_, length_answer_take b hf, exec_regRead_ok h hf ra ha⟩
      | err k => exact .inr ⟨k, exec_regRead_err h hf ra ha⟩
    | regWrite n wa data =>
      have hf : LegalWidth n ∧ data.length = n := of_decide_eq_true hi
      refine .inr (.inr (.inr (.inr (.inl ⟨n, wa, data, rfl, hf.1, hf.2, ?_⟩))))
      cases ha : s.nextAnswer with
      | ok b => exact .inl (exec_regWrite_ok h wa hf ha)
      | err k => exact .inr ⟨k, exec_regWrite_err h wa hf ha⟩
    | regRmw n ra wa mask value =>
      have hf : LegalWidth n ∧ mask.length = n ∧ value.length = n := of_decide_eq_true hi
      refine .inr (.inr (.inr (.inr (.inr ⟨n, ra, wa, mask, value, rfl, hf.1, hf.2.1, hf.2.2, ?_⟩))))
      cases ha : s.nextAnswer with
      | ok b => exact .inl ⟨_, length_answer_take b hf.1, exec_regRmw_ok h ra wa hf ha⟩
      | err k => exact .inr ⟨k, exec_regRmw_err h ra wa hf ha⟩
  · exact .inl ⟨hi, exec_malformed h hi⟩

/-- The owed write is one transaction and one response, whatever the answer. -/
theorem rmwWriteStep_cases (s : State) (wa : Byte) (old new : List Byte) :
    s.rmwWriteStep wa old new =
        ((s.dropAnswer.record (.wr wa new .ok)).setAcc .idle).respond .ok (old ++ new) ∨
      ∃ k, s.rmwWriteStep wa old new =
        ((s.dropAnswer.record (.wr wa new (.err k))).setAcc .idle).respond (.busError k .write) (old ++ new) := by
  cases ha : s.nextAnswer with
  | ok b => exact .inl (rmwWriteStep_ok wa old new ha)
  | err k => exact .inr ⟨k, rmwWriteStep_err wa old new ha⟩

end Sys2Proof.Machine
end

