-- ==== Sys2Proof/Tests/Slice0.lean ====
section
/-! SUPPORT. Tests against the worked values of spec/, and for every statement with hypotheses a state and operands
that meet them. -/

namespace Sys2Proof.Tests

open Machine

/-! ## States the tests use -/

/-- An idle unit with this CRC register. -/
def unitWith (crc : CrcWord) : State := { State.reset with crc := crc }

/-- The device answers these first bytes. -/
def okWith (b0 b1 : Byte) : BusAnswer := .ok #v[b0, b1, 0, 0, 0]

/-- A unit as after reset to which one command is offered, with these answers of the device to come. -/
def offering (word : CmdWord) (ops : List Byte) (answers : List BusAnswer) : State :=
  { State.reset with port := [⟨word, ops⟩], answers := answers }

/-- A unit that owes the write of `[0x05]` to `0xCA` (95_test_vectors.md A5, after the read). -/
def owing (answers : List BusAnswer) : State :=
  { State.reset with
    acc := .rmwWrite 0xCA 1 [0x01] [0x05], history := [.rd 0xCB 1 (.ok [0x01])], answers := answers }

/-- The serialised responses and the bus history after a step. -/
def seen (o : Host.Outcome State Fault Refusal) : Option (List (List Byte) × List BusEvent) :=
  match o with
  | .next s => some (s.responses.map Response.bytes, s.history)
  | .fault _ => none
  | .refused _ => none

/-- The CRC register and the phase after a step. -/
def held (o : Host.Outcome State Fault Refusal) : Option (CrcWord × Acc) :=
  match o with
  | .next s => some (s.crc, s.acc)
  | .fault _ => none
  | .refused _ => none

/-! ## Ill-formed terms are refused -/

theorem test_width_zero_illFormed : ¬ (Instr.regRead 0 0xCB).WellFormed := by decide

theorem test_width_six_illFormed : ¬ (Instr.regRead 6 0xCB).WellFormed := by decide

theorem test_write_width_illFormed : ¬ (Instr.regWrite 0 0xCA []).WellFormed := by decide

theorem test_write_length_illFormed : ¬ (Instr.regWrite 1 0xCA [0x01, 0x02]).WellFormed := by decide

theorem test_rmw_width_illFormed : ¬ (Instr.regRmw 6 0xCB 0xCA [1, 2, 3, 4, 5, 6] [1, 2, 3, 4, 5, 6]).WellFormed := by
  decide

theorem test_rmw_mask_illFormed : ¬ (Instr.regRmw 1 0xCB 0xCA [] [0x04]).WellFormed := by decide

theorem test_rmw_value_illFormed : ¬ (Instr.regRmw 1 0xCB 0xCA [0x04] []).WellFormed := by decide

/-! ## Words written out from the encoding of 30_encoding.md R50 and R53: OP, N, RA, WA, D8 -/

theorem test_decode_crcInit : decode ⟨0b0001_0000_00000000_00000000_00000000, []⟩ = .ok .crcInit := by rfl

theorem test_decode_crcUpdate : decode ⟨0b0010_0000_00000000_00000000_01011010, []⟩ = .ok (.crcUpdate 0x5A) := by rfl

theorem test_decode_crcRead : decode ⟨0b0011_0000_00000000_00000000_00000000, []⟩ = .ok .crcRead := by rfl

theorem test_decode_regRead : decode ⟨0b0100_0010_11001110_00000000_00000000, []⟩ = .ok (.regRead 2 0xCE) := by rfl

theorem test_decode_regWrite :
    decode ⟨0b0101_0010_00000000_10101000_00000000, [0x12, 0x34]⟩ = .ok (.regWrite 2 0xA8 [0x12, 0x34]) := by rfl

theorem test_decode_regRmw :
    decode ⟨0b0110_0010_10101001_10101000_00000000, [0x01, 0x02, 0x03, 0x04]⟩ =
      .ok (.regRmw 2 0xA9 0xA8 [0x01, 0x02] [0x03, 0x04]) := by rfl

/-- 95_test_vectors.md E1 to E6, E8, E10 to E20: the status byte of each refused command. -/
theorem test_decode_refusals :
    ([ (0x00000000, [], 3), (0x70000000, [], 3), (0xF0000000, [], 3), (0x10000001, [], 3), (0x11000000, [], 3),
       (0x10000000, [0], 2), (0x20010000, [], 3), (0x40CB0000, [], 2), (0x46CB0000, [], 2), (0x40CB0100, [], 3),
       (0x41CB0000, [1], 2), (0x5100CA00, [], 2), (0x5100CA00, [1, 2], 2), (0x5101CA00, [1], 3), (0x61CBCA00, [4], 2),
       (0x61CBCA01, [4, 4], 3), (0x60CBCA00, [], 2), (0x6FCBCA00, [], 2) ] : List (CmdWord × List Byte × Byte)).all
      (fun e => match decode ⟨e.1, e.2.1⟩ with
        | .error err => (errorStatus err).byte == e.2.2
        | .ok _ => false) = true := by decide

/-- The encodings of 30_encoding.md R63 and 95_test_vectors.md section 2.3. -/
theorem test_encode :
    encode (.crcUpdate 0x5A) = ⟨0x2000005A, []⟩ ∧ encode (.regRead 1 0xCB) = ⟨0x41CB0000, []⟩ ∧
      encode (.regWrite 1 0xCA [0x05]) = ⟨0x5100CA00, [0x05]⟩ ∧
      encode (.regRmw 1 0xCB 0xCA [0x04] [0x04]) = ⟨0x61CBCA00, [0x04, 0x04]⟩ ∧
      encode (.regRmw 5 0xC2 0xC1 [0x00, 0xFF, 0xFF, 0xFF, 0xFF] [0x00, 0x00, 0x20, 0x02, 0x00]) =
        ⟨0x65C2C100, [0x00, 0xFF, 0xFF, 0xFF, 0xFF, 0x00, 0x00, 0x20, 0x02, 0x00]⟩ := by decide

theorem test_tableWord_zero_operands : decodeTableWord 32 0x5100CA00 = some (.regWrite 1 0xCA [0x00]) := by decide

theorem test_fetchWord_runs :
    held (step (State.reset.withFetchWord 32 0x2000005A)) = some (0xFCDE, .idle) := by decide

/-- R49: the word goes first, most significant byte first. -/
theorem test_serialised : (encode (.regRmw 1 0xCB 0xCA [0x04] [0x05])).bytes = [0x61, 0xCB, 0xCA, 0x00, 0x04, 0x05] := by
  decide

/-! ## The CRC engine (95_test_vectors.md sections 2.1 and 2.2) -/

theorem test_crcStep :
    crcStep 0xFFFF 0x5A = 0xFCDE ∧ crcStep 0x0000 0x80 = 0x8303 ∧ crcStep 0x8000 0x80 = 0x0000 ∧
      crcStep 0x8000 0x5A = 0x82DF ∧ crcStep 0x1234 0xFF = 0x366E := by decide

theorem test_crcStep_forms :
    crcStepSerial 0x1234 0x5A = 0x35B0 ∧ crcStepParallelBit 0x1234 0x5A 15 = false ∧
      crcStepParallelBit 0x1234 0x5A 13 = true ∧ crcStepParallelBit 0x1234 0x5A 4 = true ∧
      crcStepParallelBit 0x1234 0x5A 0 = false := by decide

theorem test_compute : compute [] = 0xFFFF ∧ compute [0x41] = 0xFC84 ∧ compute [0xFF, 0xFF] = 0x0000 := by decide +kernel

/-- 95_test_vectors.md V10: the zeros after a seed. -/
theorem test_compute_zeros : compute [0x00, 0x00, 0x00, 0x00] = 0x0024 := by decide +kernel

/-- 95_test_vectors.md V12: the check value. -/
theorem test_compute_check : compute [0x31, 0x32, 0x33, 0x34, 0x35, 0x36, 0x37, 0x38, 0x39] = 0xAEE7 := by decide +kernel

/-- R78: the two bytes of a frame's trailer, low byte first. -/
theorem test_withTrailer : withTrailer [0x41] = [0x41, 0x84, 0xFC] := by decide

theorem test_crcInit_from_1234 : held (exec .crcInit (unitWith 0x1234)) = some (0xFFFF, .idle) := by decide

theorem test_crcUpdate_zero : held (exec (.crcUpdate 0x00) (unitWith 0xFFFF)) = some (0xFD02, .idle) := by decide

theorem test_crcRead_low_first : seen (exec .crcRead (unitWith 0xAEE7)) = some ([[0x00, 0xE7, 0xAE]], []) := by decide

/-! ## The accessor (95_test_vectors.md sections 2.4 and 2.5) -/

theorem test_merge :
    merge [0xFF] [0x04] [0x00] = [0xFB] ∧ merge [0x5A] [0x0F] [0xF3] = [0x53] ∧
      merge [0x37, 0x11, 0x22, 0x33, 0x44] [0x00, 0xFF, 0xFF, 0xFF, 0xFF] [0xEE, 0x00, 0x20, 0x02, 0x00] =
        [0x37, 0x00, 0x20, 0x02, 0x00] := by decide

theorem test_regRead_A2 :
    seen (step (offering 0x42CE0000 [] [okWith 0xE7 0xAE])) =
      some ([[0x00, 0xE7, 0xAE]], [.rd 0xCE 2 (.ok [0xE7, 0xAE])]) := by decide

theorem test_regRead_A3 :
    seen (step (offering 0x41060000 [] [.err .absent])) = some ([[0x01]], [.rd 0x06 1 (.err .absent)]) := by decide

theorem test_regWrite_ok :
    seen (step (offering 0x51000500 [0x06] [okWith 0 0])) = some ([[0x00]], [.wr 0x05 [0x06] .ok]) := by decide

theorem test_regWrite_A4 :
    seen (step (offering 0x51000500 [0x06] [.err .nack])) = some ([[0x15]], [.wr 0x05 [0x06] (.err .nack)]) := by decide

theorem test_regRmw_A5_read :
    held (step (offering 0x61CBCA00 [0x04, 0x04] [okWith 0x01 0])) = some (0xFFFF, .rmwWrite 0xCA 1 [0x01] [0x05]) := by
  decide

theorem test_regRmw_A6 :
    seen (step (offering 0x61CBCA00 [0x04, 0x04] [.err .nack])) = some ([[0x05]], [.rd 0xCB 1 (.err .nack)]) := by decide

theorem test_rmwWrite_A5 :
    seen (step (owing [okWith 0 0])) =
      some ([[0x00, 0x01, 0x05]], [.rd 0xCB 1 (.ok [0x01]), .wr 0xCA [0x05] .ok]) := by decide

theorem test_rmwWrite_A7 :
    seen (step (owing [.err .timeout])) =
      some ([[0x19, 0x01, 0x05]], [.rd 0xCB 1 (.ok [0x01]), .wr 0xCA [0x05] (.err .timeout)]) := by decide

/-- R110: reset between the read and the write loses the write. -/
theorem test_reset_loses_owed_write :
    seen (step { owing [okWith 0 0] with resetLine := [.before] }) = some ([], [.rd 0xCB 1 (.ok [0x01])]) ∧
      held (step { owing [okWith 0 0] with resetLine := [.before] }) = some (0xFFFF, .idle) := by decide

/-! ## Assembler and device bytes -/

theorem test_assembleText_rmw :
    assembleText "REG_RMW    n".toList = none ∧
      assembleText "REG_RMW 1, 0xCB, 0xCA, [0x04], [0x04]  ; set bit 2".toList = some [⟨0x61CBCA00, [0x04, 0x04]⟩] := by
  decide

theorem test_assembleText_pseudo :
    assembleText "REG_SET 1, 0xCB, 0xCA, [0x04]".toList = some [⟨0x61CBCA00, [0x04, 0x04]⟩] ∧
      assembleText "CRC_COMPUTE [90]".toList = some [⟨0x10000000, []⟩, ⟨0x2000005A, []⟩, ⟨0x30000000, []⟩] := by decide

/-- `REG_FIELD 2, ra, wa, 1, 4, 3, 5`: the field of bits 6 to 4 in byte 1. -/
theorem test_regField : regField 2 0xA9 0xA8 1 4 3 5 = .regRmw 2 0xA9 0xA8 [0x00, 0x70] [0x00, 0x50] := by decide

/-- X2: the payload of dark 32, exposed 512. -/
theorem test_exposurePayload : exposurePayload 0x37 32 512 = [0x37, 0x00, 0x20, 0x02, 0x00] := by decide

/-- 95_test_vectors.md A2: the device's CRC of `[0xE7, 0xAE]` is `0xAEE7`. -/
theorem test_crcOfBytes : crcOfBytes 0xE7 0xAE = 0xAEE7 := by decide

/-! ## Witnesses: the hypotheses of the statements can be met -/

theorem witness_ResetAbandonsTheCommandInProgress :
    ({ State.reset with resetLine := [.before] } : State).resetNow = .before ∧
    ({ owing [] with resetLine := [.during] } : State).resetNow = .during ∧
    (owing []).acc = .rmwWrite 0xCA 1 [0x01] [0x05] ∧
    ({ offering 0x51000500 [0x06] [] with resetLine := [.during] } : State).resetNow = .during ∧
    (offering 0x51000500 [0x06] []).acc = .idle ∧
    (offering 0x51000500 [0x06] []).port.head? = some ⟨0x51000500, [0x06]⟩ ∧
    State.reset.acc = .idle ∧ State.reset.port = [] := by decide

/-- A unit at the start of a `REG_RMW 1, 0xCB, 0xCA, [0x04], [0x04]` that the device answers in full. -/
def rmwOffered (r : List ResetSignal) : State :=
  { offering 0x61CBCA00 [0x04, 0x04] [okWith 0x01 0, okWith 0 0] with resetLine := r }

theorem witness_ResetBetweenReadAndWriteLosesTheWrite :
    (Instr.regRmw 1 0xCB 0xCA [0x04] [0x04]).WellFormed ∧ (rmwOffered [.quiet, .before]).acc = .idle ∧
    (rmwOffered [.quiet, .before]).port = encode (.regRmw 1 0xCB 0xCA [0x04] [0x04]) :: [] ∧
    (rmwOffered [.quiet, .before]).resetLine = .quiet :: .before :: [] ∧
    (rmwOffered [.quiet, .before]).nextAnswer = .ok #v[0x01, 0, 0, 0, 0] := by decide

theorem witness_IdleUnitWaitsForACommand :
    State.reset.acc = .idle ∧ State.reset.port = [] ∧ State.reset.resetNow = .quiet := by decide

theorem witness_BusyUnitAcceptsNoCommand :
    (owing []).acc ≠ .idle ∧ (owing []).resetNow = .quiet ∧
    ∃ t, step (owing [okWith 0 0]) = .next t ∧ (owing [okWith 0 0]).acc ≠ .idle :=
  ⟨by decide, by decide, _, rfl, by decide⟩

theorem witness_StepRunsTheDecodedInstruction :
    (offering 0x2000005A [] []).Takes ⟨0x2000005A, []⟩ ∧ decode ⟨0x2000005A, []⟩ = .ok (.crcUpdate 0x5A) :=
  ⟨by decide, rfl⟩

theorem witness_DecodeChecksInOrder_rejected :
    (offering 0x00000000 [] []).Takes ⟨0x00000000, []⟩ ∧ decode ⟨0x00000000, []⟩ = .error .reservedOp ∧
    (offering 0x10000001 [] []).Takes ⟨0x10000001, []⟩ ∧ decode ⟨0x10000001, []⟩ = .error .nonzeroField ∧
    (offering 0x46CB0000 [] []).Takes ⟨0x46CB0000, []⟩ ∧ decode ⟨0x46CB0000, []⟩ = .error .badWidth ∧
    (offering 0x41CB0000 [1] []).Takes ⟨0x41CB0000, [1]⟩ ∧ decode ⟨0x41CB0000, [1]⟩ = .error .badOperandLength :=
  ⟨by decide, rfl, by decide, rfl, by decide, rfl, by decide, rfl⟩

/-- Clause by clause: a reserved operation at each end of its ranges, and for a row a nonzero field, a width at each
side of 1 to 5, a wrong length and a right one. -/
theorem witness_DecodeChecksInOrder :
    ((0x00000000#32).extractLsb' 28 4).toNat = 0 ∧ 7 ≤ ((0x70000000#32).extractLsb' 28 4).toNat ∧
    ((0x6FCBCA01#32).extractLsb' 28 4).toNat = 6 ∧ 0x6FCBCA01#32 &&& 0xF00000FF ≠ 0x60000000 ∧
    0x60CBCA00#32 &&& 0xF00000FF = 0x60000000 ∧ ¬ (1 ≤ ((0x60CBCA00#32).extractLsb' 24 4).toNat) ∧
    0x66CBCA00#32 &&& 0xF00000FF = 0x60000000 ∧ ¬ (((0x66CBCA00#32).extractLsb' 24 4).toNat ≤ 5) ∧
    0x65CBCA00#32 &&& 0xF00000FF = 0x60000000 ∧ ((0x65CBCA00#32).extractLsb' 24 4).toNat = 5 ∧
    [0x04#8].length ≠ 2 * 1 ∧ [0x04#8, 0x04#8].length = 2 * 1 := by decide

theorem witness_WordIsOneCommandOrIllegal :
    decode ⟨0x70000000, []⟩ = .error .reservedOp ∧ 0x41CB0000#32 &&& 0xF000FFFF = 0x40000000 ∧
    decode ⟨0x40CB0000, []⟩ = .error .badWidth := ⟨rfl, by decide, rfl⟩

theorem witness_DecodeOfEncodeIsTheInstruction :
    (Instr.regRmw 5 0xC2 0xC1 [0, 1, 2, 3, 4] [5, 6, 7, 8, 9]).WellFormed ∧ (Instr.regRead 1 0xFF).WellFormed ∧
    (Instr.regWrite 5 0x00 [1, 2, 3, 4, 5]).WellFormed ∧ (Instr.crcUpdate 0xFF).WellFormed := by decide

theorem witness_EncodeOfDecodeIsTheCommand :
    decode ⟨0x65C2C100, [0, 1, 2, 3, 4, 5, 6, 7, 8, 9]⟩ =
      .ok (.regRmw 5 0xC2 0xC1 [0, 1, 2, 3, 4] [5, 6, 7, 8, 9]) := by rfl

theorem witness_SerialisedCommandReadsBack : (Instr.regWrite 2 0xA8 [0x00, 0x00]).WellFormed := by decide

theorem witness_StatusByteLayout :
    (Status.busError .timeout .write).byte = (Status.busError .timeout .write).byte ∧
      (Status.busError .timeout .write).byte = 0x19 := by decide

theorem witness_AssemblerEmitsOnlyLegalCommands :
    assemble (.regRead 5 255) = some [⟨0x45FF0000, []⟩] ∧ (assemble (.regRead 6 255)).isSome = false ∧
      (assemble (.regRead 5 256)).isSome = false := by decide

theorem witness_CrcInitCommand :
    State.reset.acc = .idle ∧
    (offering 0x11000000 [] []).Takes ⟨0x11000000, []⟩ ∧ (0x11000000#32).extractLsb' 28 4 = 0x1 ∧
    (offering 0x10000000 [0x00] []).Takes ⟨0x10000000, [0x00]⟩ ∧ (0x10000000#32).extractLsb' 28 4 = 0x1 ∧
    (offering 0x10000000 [] []).Takes ⟨0x10000000, []⟩ := by decide

theorem witness_CrcUpdateCommand :
    State.reset.acc = .idle ∧
    (offering 0x20010000 [] []).Takes ⟨0x20010000, []⟩ ∧ (0x20010000#32).extractLsb' 28 4 = 0x2 ∧
    0x20010000#32 &&& 0x0FFFFF00 ≠ 0 ∧
    (offering 0x200000FF [0x00] []).Takes ⟨0x200000FF, [0x00]⟩ ∧ (0x200000FF#32).extractLsb' 28 4 = 0x2 ∧
    0x200000FF#32 &&& 0x0FFFFF00 = 0 ∧ (offering 0x200000FF [] []).Takes ⟨0x200000FF, []⟩ := by decide

theorem witness_CrcReadCommand :
    State.reset.acc = .idle ∧
    (offering 0x30000001 [] []).Takes ⟨0x30000001, []⟩ ∧ (0x30000001#32).extractLsb' 28 4 = 0x3 ∧
    (offering 0x30000000 [0x00] []).Takes ⟨0x30000000, [0x00]⟩ ∧ (0x30000000#32).extractLsb' 28 4 = 0x3 ∧
    (offering 0x30000000 [] []).Takes ⟨0x30000000, []⟩ := by decide

theorem witness_CrcCommandsAlwaysRespondOk :
    (offering 0x10000000 [] []).Takes ⟨0x10000000, []⟩ ∧ decode ⟨0x10000000, []⟩ = .ok .crcInit ∧
    (offering 0x200000FF [] []).Takes ⟨0x200000FF, []⟩ ∧ (∃ d, decode ⟨0x200000FF, []⟩ = .ok (.crcUpdate d)) ∧
    (offering 0x30000000 [] []).Takes ⟨0x30000000, []⟩ ∧ decode ⟨0x30000000, []⟩ = .ok .crcRead :=
  ⟨by decide, rfl, by decide, ⟨0xFF, rfl⟩, by decide, rfl⟩

theorem witness_CrcStepParallelForm : 15 < 16 ∧ 0 < 16 := by decide

theorem witness_CrcIsLinear : [0x01#8, 0x02].length = [0xFF#8, 0x80].length := by decide

theorem witness_CrcComputeCommandsReturnCompute :
    let s : State := { State.reset with port := (Machine.crcCompute [0x5A]).map encode ++ [⟨0x41060000, []⟩] }
    s.acc = .idle ∧ s.resetLine = [] ∧ s.port = (Machine.crcCompute [0x5A]).map encode ++ [⟨0x41060000, []⟩] := by decide

theorem witness_CrcReadDependsOnlyOnTheUpdates :
    let cs : List Command := [⟨0x20000031, []⟩, ⟨0x61CBCA00, [0x04, 0x04]⟩, ⟨0x00000000, []⟩, ⟨0x20000032, []⟩]
    let s : State := { State.reset with
      port := [encode (.crcUpdate 0xFF)] ++ encode .crcInit :: cs ++ [encode .crcRead] }
    s.acc = .idle ∧ s.resetLine = [] ∧ (∀ c ∈ cs, decode c ≠ .ok .crcInit) ∧
      s.port = [encode (.crcUpdate 0xFF)] ++ encode .crcInit :: cs ++ [encode .crcRead] := by
  refine ⟨rfl, rfl, ?_, rfl⟩
  intro c hc
  simp only [List.mem_cons, List.not_mem_nil, or_false] at hc
  rcases hc with rfl | rfl | rfl | rfl <;> exact nofun

theorem witness_OnlyInitUpdateAndResetWriteCrc : ∃ t, step (offering 0x2000005A [] []) = .next t ∧ t.crc = 0xFCDE :=
  ⟨_, rfl, by decide⟩

theorem witness_CrcValuesAreLowByteFirst : State.reset.acc = .idle := by decide

theorem witness_RegReadCommand :
    State.reset.acc = .idle ∧ (1 ≤ 5 ∧ 5 ≤ 5) ∧
    (offering 0 [] [okWith 1 2]).nextAnswer = .ok #v[1, 2, 0, 0, 0] ∧ (offering 0 [] [.err .nack]).nextAnswer = .err .nack ∧
    (offering 0x40CB0100 [] []).Takes ⟨0x40CB0100, []⟩ ∧ (0x40CB0100#32).extractLsb' 28 4 = 0x4 ∧
    0x40CB0100#32 &&& 0x0000FFFF ≠ 0 ∧
    (offering 0x46CB0000 [] []).Takes ⟨0x46CB0000, []⟩ ∧ (0x46CB0000#32).extractLsb' 28 4 = 0x4 ∧
    0x46CB0000#32 &&& 0x0000FFFF = 0 ∧ ¬ (1 ≤ ((0x46CB0000#32).extractLsb' 24 4).toNat ∧ ((0x46CB0000#32).extractLsb' 24 4).toNat ≤ 5) ∧
    (offering 0x45CB0000 [] []).Takes ⟨0x45CB0000, []⟩ ∧ (0x45CB0000#32).extractLsb' 28 4 = 0x4 ∧
    0x45CB0000#32 &&& 0x0000FFFF = 0 ∧ ((0x45CB0000#32).extractLsb' 24 4).toNat = 5 := by decide

theorem witness_RegWriteCommand :
    State.reset.acc = .idle ∧ [0x06#8].length = 1 ∧
    (offering 0 [] [okWith 1 2]).nextAnswer = .ok #v[1, 2, 0, 0, 0] ∧ (offering 0 [] [.err .nack]).nextAnswer = .err .nack ∧
    (offering 0x5101CA00 [1] []).Takes ⟨0x5101CA00, [1]⟩ ∧ (0x5101CA00#32).extractLsb' 28 4 = 0x5 ∧
    0x5101CA00#32 &&& 0x00FF00FF ≠ 0 ∧
    (offering 0x5100CA00 [] []).Takes ⟨0x5100CA00, []⟩ ∧ (0x5100CA00#32).extractLsb' 28 4 = 0x5 ∧
    0x5100CA00#32 &&& 0x00FF00FF = 0 ∧ ((0x5100CA00#32).extractLsb' 24 4).toNat = 1 ∧
    (offering 0x5100CA00 [1] []).Takes ⟨0x5100CA00, [1]⟩ := by decide

theorem witness_RegRmwReadStep :
    State.reset.acc = .idle ∧ (Instr.regRmw 1 0xCB 0xCA [0x04] [0x04]).WellFormed ∧
    ¬ (Instr.regRmw 1 0xCB 0xCA [0x04] []).WellFormed ∧ (owing []).acc ≠ .idle ∧
    (offering 0 [] [okWith 1 2]).nextAnswer = .ok #v[1, 2, 0, 0, 0] ∧ (offering 0 [] [.err .nack]).nextAnswer = .err .nack := by
  decide

theorem witness_RegRmwWriteStep :
    (owing [okWith 0 0]).acc = .rmwWrite 0xCA 1 [0x01] [0x05] ∧ (owing [okWith 0 0]).resetNow = .quiet ∧
    (owing [okWith 0 0]).nextAnswer = .ok #v[0, 0, 0, 0, 0] ∧ (owing [.err .other]).nextAnswer = .err .other := by decide

theorem witness_RegRmwCommand :
    (Instr.regRmw 1 0xCB 0xCA [0x04] [0x04]).WellFormed ∧
    (rmwOffered []).Takes (encode (.regRmw 1 0xCB 0xCA [0x04] [0x04])) ∧ (rmwOffered []).resetLine = [] ∧
    (rmwOffered []).nextAnswer = .ok #v[0x01, 0, 0, 0, 0] ∧ (rmwOffered []).dropAnswer.nextAnswer = .ok #v[0, 0, 0, 0, 0] ∧
    (offering 0x61CBCA00 [0x04, 0x04] [okWith 1 0, .err .timeout]).dropAnswer.nextAnswer = .err .timeout ∧
    (offering 0x61CBCA00 [0x04, 0x04] [.err .nack]).nextAnswer = .err .nack ∧
    (offering 0x61CBCA01 [4, 4] []).Takes ⟨0x61CBCA01, [4, 4]⟩ ∧ (0x61CBCA01#32).extractLsb' 28 4 = 0x6 ∧
    0x61CBCA01#32 &&& 0x000000FF ≠ 0 ∧
    (offering 0x61CBCA00 [4] []).Takes ⟨0x61CBCA00, [4]⟩ ∧ (0x61CBCA00#32).extractLsb' 28 4 = 0x6 ∧
    0x61CBCA00#32 &&& 0x000000FF = 0 ∧ ((0x61CBCA00#32).extractLsb' 24 4).toNat = 1 := by decide

theorem witness_WritesAreNeverElided :
    (Instr.regRmw 1 0xCB 0xCA [0x00] [0x04]).WellFormed ∧
    (offering 0x61CBCA00 [0x00, 0x04] [okWith 0x42 0]).Takes (encode (.regRmw 1 0xCB 0xCA [0x00] [0x04])) ∧
    (offering 0x61CBCA00 [0x00, 0x04] [okWith 0x42 0]).resetLine = [] ∧
    (offering 0x61CBCA00 [0x00, 0x04] [okWith 0x42 0]).nextAnswer = .ok #v[0x42, 0, 0, 0, 0] ∧
    (Instr.regWrite 1 0xCA [0x05]).WellFormed ∧
    (offering 0x5100CA00 [0x05] []).Takes (encode (.regWrite 1 0xCA [0x05])) := by decide

theorem witness_MergeIsBitwise : [0x04#8].length = [0x01#8].length ∧ 0 < [0x01#8].length ∧ 7 < 8 := by decide

theorem witness_MergePreservesBitsOutsideMask : [0x04#8].length = [0x01#8].length ∧ 0 < [0x01#8].length := by decide

theorem witness_MergeInsertsInsideMask :
    [0x04#8].length = 1 ∧ [0x01#8].length = 1 ∧ ∀ i, i < 1 → [0x04#8].getD i 0 &&& [0x01#8].getD i 0 = 0 := by decide

theorem witness_PseudoCommandsWriteExactlyTheirBits :
    LegalWidth 5 ∧ [0#8, 0, 0, 0, 0].length = 5 ∧ FieldInByte 5 4 7 1 ∧ FieldInByte 5 0 0 8 := by decide

theorem witness_ReadAnswersAreUnconstrained :
    State.reset.acc = .idle ∧ (1 ≤ 5 ∧ 5 ≤ 5) ∧ [1#8, 2, 3, 4, 5].length = 5 := by decide

theorem witness_StaleReadbackLosesTheFirstUpdate :
    let s : State := { State.reset with
      port := [encode (.regRmw 1 0xCB 0xCA [0x04] [0x04]), encode (.regRmw 1 0xCB 0xCA [0x01] [0x01])]
      answers := [okWith 0 0, okWith 0 0, okWith 0 0, okWith 0 0] }
    (Instr.regRmw 1 0xCB 0xCA [0x04] [0x04]).WellFormed ∧ (Instr.regRmw 1 0xCB 0xCA [0x01] [0x01]).WellFormed ∧
      s.acc = .idle ∧ s.resetLine = [] ∧
      s.port = encode (.regRmw 1 0xCB 0xCA [0x04] [0x04]) :: encode (.regRmw 1 0xCB 0xCA [0x01] [0x01]) :: [] ∧
      s.answers = .ok #v[0, 0, 0, 0, 0] :: .ok #v[0, 0, 0, 0, 0] :: .ok #v[0, 0, 0, 0, 0] :: .ok #v[0, 0, 0, 0, 0] :: [] ∧
      0 < 1 := by decide

theorem witness_StateAfterEachOutcome :
    (offering 0x00000000 [] []).Takes ⟨0x00000000, []⟩ ∧ (offering 0x00000000 [] []).resetLine = [] ∧
    (rmwOffered []).Takes ⟨0x61CBCA00, [0x04, 0x04]⟩ ∧ (rmwOffered []).resetLine = [] := by decide

theorem witness_NothingButCrcAndAccPersists :
    ∃ t, step (offering 0x30000000 [] []) = .next t ∧ t.responses ≠ (offering 0x30000000 [] []).responses :=
  ⟨_, rfl, by decide⟩

theorem witness_TransactionsAreInIssueOrder : ∃ t, step (owing [okWith 0 0]) = .next t ∧ t.history.length = 2 :=
  ⟨_, rfl, by decide⟩

theorem witness_EveryCommandGetsOneResponse : (rmwOffered []).acc = .idle ∧ (rmwOffered []).resetLine = [] := by decide

theorem witness_WritesAreNeverRepeated :
    (rmwOffered []).acc = .idle ∧ writeCommands 0xCA (rmwOffered []).port = 1 := by decide

theorem witness_EveryStepKeepsTheInvariant : (owing [okWith 0 0]).Inv ∧ ∃ t, step (owing [okWith 0 0]) = .next t := by
  refine ⟨⟨⟨by decide, rfl, rfl⟩, ⟨0xCB, rfl⟩, ?_, nofun⟩, _, rfl⟩
  intro e he
  simp only [owing, List.mem_cons, List.not_mem_nil, or_false] at he
  subst he
  exact ⟨by decide, rfl⟩

theorem witness_ModeCodes : (0x00 : Byte) ≠ 0xFF ∧ (0x00 : Byte) ≠ 0x01 ∧ (0x00 : Byte) ≠ 0x06 := by decide

theorem witness_ExposurePayloadIsBigEndian :
    State.reset.acc = .idle ∧ (offering 0 [] [okWith 0x37 0]).nextAnswer = .ok #v[0x37, 0, 0, 0, 0] := by decide

end Sys2Proof.Tests
end

/-! ## Obligation 29: the byte order of a CRC value (20_memory.md R36) -/

namespace Sys2Proof.Machine

/-- The two-byte value is the concatenation with the high byte above the low byte. -/
theorem crcOfBytes_eq_append (lo hi : Byte) : crcOfBytes lo hi = hi ++ lo := by
  rw [crcOfBytes, BitVec.or_comm, ← BitVec.setWidth_append_eq_shiftLeft_setWidth_or, BitVec.setWidth_eq]

/-- A CRC value is read back from its low byte and its high byte. -/
theorem crcOfBytes_extractLsb' (c : CrcWord) : crcOfBytes (c.extractLsb' 0 8) (c.extractLsb' 8 8) = c := by
  rw [crcOfBytes_eq_append]
  exact (BitVec.extractLsb'_append_extractLsb'_eq_extractLsb' rfl).trans BitVec.extractLsb'_eq_self

/-- The bytes of a two-byte value are those two, the low byte first. -/
@[simp] theorem crcBytes_crcOfBytes (lo hi : Byte) : crcBytes (crcOfBytes lo hi) = [lo, hi] := by
  rw [crcBytes, crcOfBytes_eq_append, BitVec.extractLsb'_append_eq_right, BitVec.extractLsb'_append_eq_left]

/-- Settles O29: concatenation inverts the two extractions; the trailer and the data of `CRC_READ` are `crcBytes`. -/
theorem crcValuesAreLowByteFirst : Obligations.CrcValuesAreLowByteFirst := by
  unfold Obligations.CrcValuesAreLowByteFirst
  refine ⟨fun c => ⟨rfl, crcOfBytes_extractLsb' c⟩, crcBytes_crcOfBytes, fun _ => rfl, fun s hidle => ?_⟩
  exact exec_crcRead hidle

end Sys2Proof.Machine

/-! ## Obligation 44: what one step adds to the bus history, the responses and the port (20_memory.md R44) -/

namespace Sys2Proof.Machine

/-- From `s` to `t` at most one transaction joins the history and at most one response is given, each at the end, and
nothing is taken back. -/
def State.IssuesAtMostOne (s t : State) : Prop :=
  ∃ (e : Option BusEvent) (r : Option Response),
    t.history = s.history ++ e.toList ∧ t.responses = s.responses ++ r.toList

/-- From `s` to `t` the host's commands are as they were, or an idle unit took the next one. -/
def State.TakesAtMostOne (s t : State) : Prop :=
  t.port = s.port ∨ (s.acc = .idle ∧ ∃ c, s.port = c :: t.port)

theorem State.IssuesAtMostOne.refl (s : State) : s.IssuesAtMostOne s := ⟨none, none, by simp⟩

theorem State.issuesAtMostOne_respond (s : State) (st : Status) (data : List Byte) :
    s.IssuesAtMostOne (s.respond st data) := ⟨none, some ⟨st, data⟩, by simp⟩

/-- One answered transaction, with no response yet. -/
theorem State.issuesAtMostOne_transaction (s : State) (e : BusEvent) : s.IssuesAtMostOne (s.dropAnswer.record e) :=
  ⟨some e, none, by simp⟩

/-- One answered transaction and the response that ends its command. -/
theorem State.issuesAtMostOne_transaction_respond (s : State) (e : BusEvent) (st : Status) (data : List Byte) :
    s.IssuesAtMostOne ((s.dropAnswer.record e).respond st data) := ⟨some e, some ⟨st, data⟩, by simp⟩

/-! ### A cut transaction -/

@[simp] theorem State.recordCut_port (s : State) (e : Option BusEvent) : (s.recordCut e).port = s.port := by
  cases e <;> rfl

@[simp] theorem State.recordCut_history (s : State) (e : Option BusEvent) :
    (s.recordCut e).history = s.history ++ e.toList := by
  cases e <;> simp

@[simp] theorem State.recordCut_responses (s : State) (e : Option BusEvent) :
    (s.recordCut e).responses = s.responses := by
  cases e <;> rfl

/-- What a reset inside a step leaves, said once: the owed write is cut; the command offered is taken, with the
transaction of its instruction cut if it has one; or there was nothing to abandon. -/
theorem cutStep_cases (s : State) :
    (∃ wa n old new, s.acc = .rmwWrite wa n old new ∧ s.cutStep = (s.record (.wrCut wa new)).applyReset) ∨
    (∃ c cs e, s.acc = .idle ∧ s.port = c :: cs ∧ s.cutStep = (s.takeCommand.recordCut e).applyReset ∧
      ((∃ i, decode c = .ok i ∧ e = cutTransaction i) ∨ ∃ err, decode c = .error err ∧ e = none)) ∨
    (s.acc = .idle ∧ s.port = [] ∧ s.cutStep = s.applyReset) := by
  cases ha : s.acc with
  | rmwWrite wa n old new =>
    exact .inl ⟨wa, n, old, new, rfl, by simp only [State.cutStep, work_busy ha]⟩
  | idle =>
    cases hp : s.port with
    | nil => exact .inr (.inr ⟨rfl, rfl, by simp only [State.cutStep, work_none ha hp]⟩)
    | cons c cs =>
      have hw : s.work = .offered c := work_offered ha (by rw [hp]; rfl)
      refine .inr (.inl ?_)
      cases hd : decode c with
      | ok i =>
        exact ⟨c, cs, cutTransaction i, rfl, rfl, by simp only [State.cutStep, hw, hd], .inl ⟨i, hd, rfl⟩⟩
      | error err =>
        exact ⟨c, cs, none, rfl, rfl, by simp only [State.cutStep, hw, hd, State.recordCut_none], .inr ⟨err, hd, rfl⟩⟩

/-- A transaction that reset cut stands in the history, and its command gets no response. -/
theorem State.issuesAtMostOne_recordCut (s : State) (e : Option BusEvent) : s.IssuesAtMostOne (s.recordCut e) :=
  ⟨e, none, by simp⟩

/-! ### What each part of a step issues -/

/-- A refused or CRC command responds without a transaction; a register command makes one transaction and responds,
unless it is the answered read of a `REG_RMW`. None of them touches the port. -/
theorem exec_issuesAtMostOne {s : State} (h : s.acc = .idle) (i : Instr) :
    ∃ t, exec i s = .next t ∧ s.IssuesAtMostOne t ∧ t.port = s.port := by
  rcases exec_cases h i with ⟨-, he⟩ | ⟨-, he⟩ | ⟨d8, -, he⟩ | ⟨-, he⟩ | ⟨n, ra, -, -, hread⟩ |
    ⟨n, wa, data, -, -, -, hwrite⟩ | ⟨n, ra, wa, mask, value, -, -, -, -, hrmw⟩
  · exact ⟨_, he, s.issuesAtMostOne_respond _ _, rfl⟩
  · exact ⟨_, he, s.issuesAtMostOne_respond _ _, rfl⟩
  · exact ⟨_, he, s.issuesAtMostOne_respond _ _, rfl⟩
  · exact ⟨_, he, s.issuesAtMostOne_respond _ _, rfl⟩
  · obtain ⟨bytes, -, he⟩ | ⟨k, he⟩ := hread
    · exact ⟨_, he, s.issuesAtMostOne_transaction_respond _ _ _, by simp⟩
    · exact ⟨_, he, s.issuesAtMostOne_transaction_respond _ _ _, by simp⟩
  · obtain he | ⟨k, he⟩ := hwrite
    · exact ⟨_, he, s.issuesAtMostOne_transaction_respond _ _ _, by simp⟩
    · exact ⟨_, he, s.issuesAtMostOne_transaction_respond _ _ _, by simp⟩
  · obtain ⟨old, -, he⟩ | ⟨k, he⟩ := hrmw
    · exact ⟨_, he, s.issuesAtMostOne_transaction _, by simp⟩
    · exact ⟨_, he, s.issuesAtMostOne_transaction_respond _ _ _, by simp⟩

/-- Taking the command offered and running it: a failed decode check is a response alone. -/
theorem runCommand_issuesAtMostOne {s : State} (h : s.acc = .idle) (c : Command) :
    ∃ t, s.runCommand c = .next t ∧ s.IssuesAtMostOne t ∧ t.port = s.port := by
  cases hd : decode c with
  | ok i => exact runCommand_ok hd ▸ exec_issuesAtMostOne h i
  | error err => exact ⟨_, runCommand_error hd, s.issuesAtMostOne_respond _ _, rfl⟩

/-- The owed write. -/
theorem rmwWriteStep_issuesAtMostOne (s : State) (wa : Byte) (old new : List Byte) :
    s.IssuesAtMostOne (s.rmwWriteStep wa old new) ∧ (s.rmwWriteStep wa old new).port = s.port := by
  obtain he | ⟨k, he⟩ := rmwWriteStep_cases s wa old new
  · exact he ▸ ⟨s.issuesAtMostOne_transaction_respond _ _ _, by simp⟩
  · exact he ▸ ⟨s.issuesAtMostOne_transaction_respond _ _ _, by simp⟩

/-- A step inside which reset falls. -/
theorem cutStep_issuesAtMostOne (s : State) : s.IssuesAtMostOne s.cutStep ∧ s.TakesAtMostOne s.cutStep := by
  obtain ⟨wa, n, old, new, -, he⟩ | ⟨c, cs, e, ha, hp, he, -⟩ | ⟨-, -, he⟩ := cutStep_cases s
  · exact he ▸ ⟨s.issuesAtMostOne_recordCut (some (.wrCut wa new)), .inl rfl⟩
  · exact he ▸ ⟨s.takeCommand.issuesAtMostOne_recordCut e, .inr ⟨ha, c, by simp [hp]⟩⟩
  · exact he ▸ ⟨.refl s, .inl rfl⟩

/-- Every step, with or without a reset, answers a next state, issues at most one transaction and one response, and
takes at most one command. -/
theorem step_issuesAtMostOne (s : State) :
    ∃ t, step s = .next t ∧ s.IssuesAtMostOne t ∧ s.TakesAtMostOne t := by
  obtain ⟨-, he⟩ | ⟨-, he⟩ | ⟨-, wa, n, old, new, -, he⟩ | ⟨c, ⟨ha, -, hp⟩, he⟩ | ⟨-, -, -, he⟩ := step_cases s
  · exact ⟨_, he, .refl s, .inl rfl⟩
  · exact ⟨_, he, cutStep_issuesAtMostOne s.passReset⟩
  · obtain ⟨hissues, hport⟩ := rmwWriteStep_issuesAtMostOne s.passReset wa old new
    exact ⟨_, he, hissues, .inl hport⟩
  · obtain ⟨t, ht, hissues, hport⟩ := runCommand_issuesAtMostOne (s := s.taken) ha c
    have hcons : s.port = c :: t.port := by
      rw [hport, State.taken_port]
      exact List.eq_cons_of_mem_head? hp
    exact ⟨t, he.trans ht, hissues, .inr ⟨ha, c, hcons⟩⟩
  · exact ⟨_, he, .refl s, .inl rfl⟩

/-- Settles O44, case by case over what a step can be: the lists appended are those of two options. -/
theorem transactionsAreInIssueOrder : Obligations.TransactionsAreInIssueOrder := by
  unfold Obligations.TransactionsAreInIssueOrder
  intro s t hst
  obtain ⟨u, hsu, ⟨e, r, hhistory, hresponses⟩, htakes⟩ := step_issuesAtMostOne s
  obtain rfl : t = u := Host.Outcome.next.inj (hst.symm.trans hsu)
  exact ⟨⟨e.toList, r.toList, hhistory, Option.length_toList_le, hresponses, Option.length_toList_le⟩, htakes⟩

end Sys2Proof.Machine

/-! ## Obligations 8 and 9: the checks of decoding, and the rows of the opcode table (30_encoding.md R54, R57, R59) -/

namespace Sys2Proof

open Machine

/-! ### Which operation the field `OP` names -/

/-- The reserved values of `OP` are `0x0` and `0x7` to `0xF` (R56). -/
theorem Opcode.ofField_eq_none {op : BitVec 4} : Opcode.ofField op = none ↔ op.toNat = 0 ∨ 7 ≤ op.toNat := by
  revert op
  decide

theorem decode_of_reserved {c : Command} (h : Opcode.ofField (opField c.word) = none) :
    decode c = .error .reservedOp := by
  unfold decode
  rw [h]

theorem decode_of_opField {c : Command} {o : Opcode} (h : opField c.word = o.field) : decode c = decodeAs o c := by
  unfold decode
  rw [Opcode.ofField_eq_some.mpr h]

/-! ### The checks after the first, each where the ones before it pass -/

section Checks

variable {o : Opcode} {c : Command}

theorem decodeAs_nonzeroField (hm : c.word &&& o.mask ≠ o.pattern) : decodeAs o c = .error .nonzeroField :=
  if_pos hm

theorem decodeAs_badWidth (hm : c.word &&& o.mask = o.pattern) (hw : o.hasWidth = true)
    (hn : ¬ LegalWidth (widthField c.word)) : decodeAs o c = .error .badWidth := by
  rw [decodeAs, if_neg (not_not.mpr hm), if_pos ⟨hw, hn⟩]

/-- What is left once the row's match and the width are in order: the number of operand bytes decides. -/
theorem decodeAs_of_legalWidth (hm : c.word &&& o.mask = o.pattern)
    (hn : o.hasWidth = true → LegalWidth (widthField c.word)) :
    decodeAs o c = if c.ops.length ≠ o.operandLength (widthField c.word) then .error .badOperandLength
      else .ok (o.assemble c) := by
  rw [decodeAs, if_neg (not_not.mpr hm), if_neg (fun h => h.2 (hn h.1))]

theorem decodeAs_badOperandLength (hm : c.word &&& o.mask = o.pattern)
    (hn : o.hasWidth = true → LegalWidth (widthField c.word))
    (hl : c.ops.length ≠ o.operandLength (widthField c.word)) : decodeAs o c = .error .badOperandLength := by
  rw [decodeAs_of_legalWidth hm hn, if_pos hl]

theorem decodeAs_ok (hm : c.word &&& o.mask = o.pattern) (hn : o.hasWidth = true → LegalWidth (widthField c.word))
    (hl : c.ops.length = o.operandLength (widthField c.word)) : decodeAs o c = .ok (o.assemble c) := by
  rw [decodeAs_of_legalWidth hm hn, if_neg (not_not.mpr hl)]

end Checks

/-- A command of the operation `o` that stands for `i` when its length is right: the checks of its row in order, and
then `i` (R54, R59). -/
theorem decode_checks_row (o : Opcode) (c : Command) {i : Instr} (hop : (opField c.word).toNat = o.field.toNat)
    (hi : c.ops.length = o.operandLength (widthField c.word) → o.assemble c = i) :
    (c.word &&& o.mask ≠ o.pattern → decode c = .error .nonzeroField) ∧
    (c.word &&& o.mask = o.pattern →
      (o.hasWidth = true → ¬ LegalWidth (widthField c.word) → decode c = .error .badWidth) ∧
      ((o.hasWidth = true → LegalWidth (widthField c.word)) →
        (c.ops.length ≠ o.operandLength (widthField c.word) → decode c = .error .badOperandLength) ∧
        (c.ops.length = o.operandLength (widthField c.word) → decode c = .ok i))) := by
  rw [decode_of_opField (BitVec.eq_of_toNat_eq hop)]
  exact ⟨decodeAs_nonzeroField, fun hm => ⟨decodeAs_badWidth hm, fun hn =>
    ⟨decodeAs_badOperandLength hm hn, fun hl => hi hl ▸ decodeAs_ok hm hn hl⟩⟩⟩

/-- The value of a `REG_RMW` is all that follows its mask when there are `2 * n` operand bytes (R52). -/
theorem valueOperand_eq_drop {n : Nat} {ops : List Byte} (h : ops.length = 2 * n) :
    valueOperand n ops = ops.drop n :=
  List.take_of_length_le (by rw [List.length_drop]; omega)

/-! ### Which rows a word matches -/

/-- Every operation, in the order of R54. -/
def Opcode.all : List Opcode := [.crcInit, .crcUpdate, .crcRead, .regRead, .regWrite, .regRmw]

theorem Opcode.mem_all (o : Opcode) : o ∈ Opcode.all := by
  cases o <;> decide

/-- The row of `o` matches the word: the test of R55, by the columns `match` and `mask` of R54. -/
def Opcode.selects (w : CmdWord) (o : Opcode) : Bool := w &&& o.mask == o.pattern

theorem Opcode.selects_iff {w : CmdWord} {o : Opcode} : o.selects w = true ↔ w &&& o.mask = o.pattern :=
  beq_iff_eq

theorem opField_and (v w : CmdWord) : opField (v &&& w) = opField v &&& opField w :=
  BitVec.extractLsb'_and

theorem Opcode.opField_mask (o : Opcode) : opField o.mask = BitVec.allOnes 4 := by
  cases o <;> rfl

theorem Opcode.opField_pattern (o : Opcode) : opField o.pattern = o.field := by
  cases o <;> rfl

/-- Every mask covers the field `OP` and every match has its operation there, so a row matches only words that name
its own operation. -/
theorem Opcode.opField_of_selects {w : CmdWord} {o : Opcode} (h : o.selects w = true) : opField w = o.field :=
  calc opField w = opField (w &&& o.mask) := by rw [opField_and, o.opField_mask, BitVec.and_allOnes]
    _ = opField o.pattern := by rw [Opcode.selects_iff.mp h]
    _ = o.field := o.opField_pattern

/-- No two operations share a field value (R53). -/
theorem Opcode.length_filter_field_le_one (op : BitVec 4) : (Opcode.all.filter (op == ·.field)).length ≤ 1 := by
  revert op
  decide

theorem Opcode.length_filter_selects_le_one (w : CmdWord) : (Opcode.all.filter (Opcode.selects w)).length ≤ 1 :=
  have hsub : (Opcode.all.filter (Opcode.selects w)).Sublist (Opcode.all.filter (opField w == ·.field)) :=
    List.monotone_filter_right _ fun _ h => beq_iff_eq.mpr (Opcode.opField_of_selects h)
  hsub.length_le.trans (Opcode.length_filter_field_le_one (opField w))

/-- A word that no row matches is illegal with any operands: its `OP` is reserved or a field of its row is not zero. -/
theorem decode_illegal_of_not_selects {c : Command} (h : ∀ o : Opcode, ¬ o.selects c.word = true) :
    ∃ e, decode c = .error e ∧ errorStatus e = .illegalCommand := by
  cases hop : Opcode.ofField (opField c.word) with
  | none => exact ⟨.reservedOp, decode_of_reserved hop, rfl⟩
  | some o =>
    have hm : c.word &&& o.mask ≠ o.pattern := fun hm => h o (Opcode.selects_iff.mpr hm)
    exact ⟨.nonzeroField, (decode_of_opField (Opcode.ofField_eq_some.mp hop)).trans (decodeAs_nonzeroField hm), rfl⟩

/-- A word that a row matches can fail only the checks of the width and of the operand length. -/
theorem errorStatus_of_selects {c : Command} {o : Opcode} {e : DecodeError} (h : o.selects c.word = true)
    (he : decode c = .error e) : errorStatus e = .invalidConfiguration := by
  have hm := Opcode.selects_iff.mp h
  rw [decode_of_opField (Opcode.opField_of_selects h)] at he
  by_cases hn : o.hasWidth = true → LegalWidth (widthField c.word)
  · by_cases hl : c.ops.length = o.operandLength (widthField c.word)
    · cases (decodeAs_ok hm hn hl).symm.trans he
    · cases (decodeAs_badOperandLength hm hn hl).symm.trans he
      rfl
  · obtain ⟨hw, hn⟩ := Classical.not_imp.mp hn
    cases (decodeAs_badWidth hm hw hn).symm.trans he
    rfl

namespace Machine

/-- A command taken that fails a check gets the response of that check and has no other effect (R59). -/
theorem step_refuses {s : State} {c : Command} {e : DecodeError} (ht : s.Takes c) (he : decode c = .error e) :
    step s = .next (s.refused (errorStatus e)) := by
  rw [step_takes ht, runCommand_error he, State.refused_eq]

/-- Settles O8: each row is an operation, and its clauses are the branches of `decodeAs`. -/
theorem decodeChecksInOrder : Obligations.DecodeChecksInOrder := by
  unfold Obligations.DecodeChecksInOrder
  intro w ops
  refine ⟨fun hop => decode_of_reserved (Opcode.ofField_eq_none.mpr hop), ?_, ?_⟩
  · have hrmw (hl : ops.length = 2 * widthField w) : Opcode.regRmw.assemble ⟨w, ops⟩ =
        .regRmw (widthField w) (readAddrField w) (writeAddrField w) (ops.take (widthField w))
          (ops.drop (widthField w)) := by
      rw [← valueOperand_eq_drop hl]
      rfl
    intro row hrow hop
    simp only [List.mem_cons, List.not_mem_nil, or_false] at hrow
    obtain rfl | rfl | rfl | rfl | rfl | rfl := hrow
    · exact decode_checks_row .crcInit ⟨w, ops⟩ hop fun _ => rfl
    · exact decode_checks_row .crcUpdate ⟨w, ops⟩ hop fun _ => rfl
    · exact decode_checks_row .crcRead ⟨w, ops⟩ hop fun _ => rfl
    · exact decode_checks_row .regRead ⟨w, ops⟩ hop fun _ => rfl
    · exact decode_checks_row .regWrite ⟨w, ops⟩ hop fun _ => rfl
    · exact decode_checks_row .regRmw ⟨w, ops⟩ hop hrmw
  · intro s e ht he
    rw [step_refuses ht he]
    cases e <;> rfl

/-- Settles O9: the rows selected are those of the operations that select the word. -/
theorem wordIsOneCommandOrIllegal : Obligations.WordIsOneCommandOrIllegal := by
  unfold Obligations.WordIsOneCommandOrIllegal
  intro w selected
  have hsel : selected = (Opcode.all.filter (Opcode.selects w)).map fun o => (o.pattern, o.mask) :=
    List.filter_map (f := fun o : Opcode => (o.pattern, o.mask)) (l := Opcode.all)
  have hnone : selected = [] ↔ ∀ o : Opcode, ¬ o.selects w = true := by
    simp only [hsel, List.map_eq_nil_iff, List.filter_eq_nil_iff, Opcode.mem_all, true_imp_iff]
  refine ⟨?_, fun h ops => decode_illegal_of_not_selects (hnone.mp h), fun h ops e he => ?_⟩
  · rw [hsel, List.length_map]
    exact Opcode.length_filter_selects_le_one w
  · obtain ⟨o, ho⟩ := not_forall_not.mp (mt hnone.mpr h)
    exact errorStatus_of_selects ho he

end Machine

end Sys2Proof

/-! ## Obligations 16 to 19 and 27: the CRC commands, and what `CRC_READ` returns (40_crc.md R69 to R74) -/

namespace Sys2Proof

open Machine

/-! ### The must-be-zero fields of a word whose operation is known -/

/-- A command word is its field `OP` above its other 28 bits. -/
theorem opField_append_low (w : CmdWord) : opField w ++ w.extractLsb' 0 28 = w :=
  (BitVec.extractLsb'_append_extractLsb'_eq_extractLsb' rfl).trans BitVec.extractLsb'_eq_self

/-- Two command words agree when their fields `OP` and their other 28 bits do. -/
theorem cmdWord_eq_iff {v w : CmdWord} :
    v = w ↔ opField v = opField w ∧ v.extractLsb' 0 28 = w.extractLsb' 0 28 := by
  refine ⟨fun h => h ▸ ⟨rfl, rfl⟩, fun ⟨hop, hlow⟩ => ?_⟩
  rw [← opField_append_low v, hop, hlow, opField_append_low]

theorem Opcode.pattern_low (o : Opcode) : o.pattern.extractLsb' 0 28 = 0 := by
  cases o <;> rfl

/-- Where `OP` is the row's, the row matches exactly when the other bits of its mask are zero in the word (R55). -/
theorem Opcode.matches_iff_fields_zero {o : Opcode} {w : CmdWord} (h : opField w = o.field) :
    w &&& o.mask = o.pattern ↔ w &&& (o.mask &&& 0x0FFFFFFF) = 0 := by
  have hop : opField (w &&& o.mask) = opField o.pattern := by
    rw [opField_and, o.opField_mask, BitVec.and_allOnes, h, o.opField_pattern]
  have hzero : opField (w &&& (o.mask &&& 0x0FFFFFFF)) = opField 0 := by
    rw [opField_and, opField_and, show opField 0x0FFFFFFF = 0#4 from rfl, BitVec.and_zero, BitVec.and_zero]
    rfl
  have hlow : (0x0FFFFFFF : CmdWord).extractLsb' 0 28 = BitVec.allOnes 28 := rfl
  have hlow0 : (0 : CmdWord).extractLsb' 0 28 = 0 := rfl
  rw [cmdWord_eq_iff, cmdWord_eq_iff, and_iff_right hop, and_iff_right hzero, o.pattern_low]
  simp only [BitVec.extractLsb'_and, hlow, BitVec.and_allOnes, hlow0]

/-- `CRC_INIT` and `CRC_READ` have no free bit: their rows match one word (R54). -/
theorem Opcode.matches_iff_of_full_mask {o : Opcode} {w : CmdWord} (h : o.mask = BitVec.allOnes 32) :
    w &&& o.mask = o.pattern ↔ w = o.pattern := by
  rw [h, BitVec.and_allOnes]

/-- The operations without a width take no operand bytes (R51). -/
theorem Opcode.operandLength_of_not_hasWidth {o : Opcode} (h : o.hasWidth = false) (n : Nat) :
    o.operandLength n = 0 := by
  cases o with
  | crcInit | crcUpdate | crcRead => rfl
  | regRead | regWrite | regRmw => cases h

namespace Machine

/-! ### A CRC command offered at the port -/

/-- A word of a `CRC_*` operation, with its operand bytes, at the port (R59). Its row matches the word when `p` holds;
the operation has no width, and operand bytes are always too many. -/
theorem step_crcRow {s t : State} {w : CmdWord} {ops : List Byte} {o : Opcode} {p : Prop} (ht : s.Takes ⟨w, ops⟩)
    (hop : opField w = o.field) (ho : o.hasWidth = false) (hp : w &&& o.mask = o.pattern ↔ p)
    (he : exec (o.assemble ⟨w, ops⟩) s.taken = .next t) :
    (¬ p → step s = .next (s.refused .illegalCommand)) ∧
    (p → ops ≠ [] → step s = .next (s.refused .invalidConfiguration)) ∧
    (p → ops = [] → step s = .next t) := by
  have hlen : ops.length = o.operandLength (widthField w) ↔ ops = [] := by
    rw [Opcode.operandLength_of_not_hasWidth ho, List.length_eq_zero_iff]
  have hwidth : o.hasWidth = true → LegalWidth (widthField w) := fun h => nomatch ho.symm.trans h
  obtain ⟨hfields, hmatch⟩ := decode_checks_row o ⟨w, ops⟩ (congrArg BitVec.toNat hop) fun _ => rfl
  have hchecks (h : p) := (hmatch (hp.mpr h)).2 hwidth
  refine ⟨fun hn => step_refuses ht (hfields (mt hp.mp hn)),
    fun h hops => step_refuses ht ((hchecks h).1 (mt hlen.mp hops)), fun h hops => ?_⟩
  rw [step_takes ht, runCommand_ok ((hchecks h).2 (hlen.mpr hops)), he]

/-- Settles O16: the row of `CRC_INIT` matches its one word. -/
theorem crcInitCommand : Obligations.CrcInitCommand := by
  unfold Obligations.CrcInitCommand
  refine ⟨fun s hidle => exec_crcInit hidle, fun s w ops ht hop => ?_⟩
  have hword : w &&& Opcode.crcInit.mask = Opcode.crcInit.pattern ↔ w = 0x10000000 :=
    Opcode.matches_iff_of_full_mask rfl
  exact step_crcRow (o := .crcInit) ht hop rfl hword (exec_crcInit ht.1)

/-- Settles O17: the row of `CRC_UPDATE` leaves the byte free and asks zero of the fields between. -/
theorem crcUpdateCommand : Obligations.CrcUpdateCommand := by
  unfold Obligations.CrcUpdateCommand
  refine ⟨fun s d8 hidle => exec_crcUpdate hidle d8, fun s w ops ht hop => ?_, by decide⟩
  have hword : w &&& Opcode.crcUpdate.mask = Opcode.crcUpdate.pattern ↔ w &&& 0x0FFFFF00 = 0 :=
    Opcode.matches_iff_fields_zero hop
  exact step_crcRow (o := .crcUpdate) ht hop rfl hword (exec_crcUpdate (s := s.taken) ht.1 _)

/-- Settles O18: the row of `CRC_READ` matches its one word, and its data are the bytes of the register. -/
theorem crcReadCommand : Obligations.CrcReadCommand := by
  unfold Obligations.CrcReadCommand
  refine ⟨fun s hidle => exec_crcRead hidle, fun s w ops ht hop => ?_, crcOfBytes_extractLsb', by decide +kernel⟩
  have hword : w &&& Opcode.crcRead.mask = Opcode.crcRead.pattern ↔ w = 0x30000000 :=
    Opcode.matches_iff_of_full_mask rfl
  exact step_crcRow (o := .crcRead) ht hop rfl hword (exec_crcRead ht.1)

/-! ### A well-formed CRC command -/

/-- The instructions `CRC_INIT`, `CRC_UPDATE` and `CRC_READ` on an idle unit: a new value of the register, which may be
the old one, and the response OK. -/
theorem exec_crc {s : State} (h : s.acc = .idle) {i : Instr}
    (hi : i = .crcInit ∨ (∃ d, i = .crcUpdate d) ∨ i = .crcRead) :
    ∃ v data, exec i s = .next ((s.setCrc v).respond .ok data) := by
  obtain rfl | ⟨d, rfl⟩ | rfl := hi
  · exact ⟨_, _, exec_crcInit h⟩
  · exact ⟨_, _, exec_crcUpdate h d⟩
  · exact ⟨s.crc, _, exec_crcRead h⟩

/-- Settles O19: the register and the response are all that such a step changes of the unit. -/
theorem crcCommandsAlwaysRespondOk : Obligations.CrcCommandsAlwaysRespondOk := by
  unfold Obligations.CrcCommandsAlwaysRespondOk
  intro s c ht hc
  obtain ⟨i, hd, hi⟩ : ∃ i, decode c = .ok i ∧ (i = .crcInit ∨ (∃ d, i = .crcUpdate d) ∨ i = .crcRead) := by
    obtain hd | ⟨d, hd⟩ | hd := hc
    · exact ⟨_, hd, .inl rfl⟩
    · exact ⟨_, hd, .inr (.inl ⟨d, rfl⟩)⟩
    · exact ⟨_, hd, .inr (.inr rfl)⟩
  obtain ⟨v, data, he⟩ := exec_crc (s := s.taken) ht.1 hi
  exact ⟨_, data, (step_takes ht).trans ((runCommand_ok hd).trans he), rfl, rfl, rfl, rfl, ht.1⟩

/-! ### Runs of several steps -/

theorem run_succ {M : Host.Core} {s t : M.State} (h : M.step s = .next t) (k : Nat) : M.run (k + 1) s = M.run k t := by
  rw [Host.Core.run, h]

/-- A run in two parts, the first of which does not stop. -/
theorem run_add {M : Host.Core} {s t : M.State} {k : Nat} (h : M.run k s = .next t) (m : Nat) :
    M.run (k + m) s = M.run m t := by
  induction k generalizing s with
  | zero =>
    cases h
    rw [Nat.zero_add]
  | succ k ih =>
    rw [Host.Core.run] at h
    cases hs : M.step s with
    | next u =>
      rw [hs] at h
      rw [Nat.succ_add, run_succ hs, ih h]
    | fault r =>
      rw [hs] at h
      cases h
    | refused r =>
      rw [hs] at h
      cases h

/-! ### The CRC register along the commands -/

/-- The CRC register after an instruction: only `CRC_INIT` and `CRC_UPDATE` write it (R73). -/
def crcAfterInstr (crc : CrcWord) : Instr → CrcWord
  | .crcInit => Config.crcSeed
  | .crcUpdate d8 => crcStep crc d8
  | .crcRead => crc
  | .regRead _ _ => crc
  | .regWrite _ _ _ => crc
  | .regRmw _ _ _ _ _ => crc

theorem crcAfterInstr_of_malformed (crc : CrcWord) {i : Instr} (h : ¬ i.WellFormed) : crcAfterInstr crc i = crc := by
  cases i with
  | crcInit | crcUpdate | crcRead => exact absurd rfl h
  | regRead | regWrite | regRmw => rfl

theorem crcAfter_cons_ok {c : Command} {i : Instr} (h : decode c = .ok i) (crc : CrcWord) (cs : List Command) :
    crcAfter crc (c :: cs) = crcAfter (crcAfterInstr crc i) cs := by
  cases i <;> simp only [crcAfter, h, crcAfterInstr]

theorem crcAfter_cons_error {c : Command} {e : DecodeError} (h : decode c = .error e) (crc : CrcWord)
    (cs : List Command) : crcAfter crc (c :: cs) = crcAfter crc cs := by
  simp only [crcAfter, h]

theorem crcAfter_append (crc : CrcWord) (cs ds : List Command) :
    crcAfter crc (cs ++ ds) = crcAfter (crcAfter crc cs) ds := by
  induction cs generalizing crc with
  | nil => rfl
  | cons c cs ih =>
    rw [List.cons_append]
    cases h : decode c with
    | ok i => rw [crcAfter_cons_ok h, crcAfter_cons_ok h, ih]
    | error e => rw [crcAfter_cons_error h, crcAfter_cons_error h, ih]

theorem updateBytes_cons_update {c : Command} {d8 : Byte} (h : decode c = .ok (.crcUpdate d8)) (cs : List Command) :
    updateBytes (c :: cs) = d8 :: updateBytes cs := by
  simp only [updateBytes, h]

theorem updateBytes_cons_other {c : Command} (h : ∀ d8, decode c ≠ .ok (.crcUpdate d8)) (cs : List Command) :
    updateBytes (c :: cs) = updateBytes cs := by
  rw [updateBytes]
  split
  · exact absurd ‹_› (h _)
  · rfl

/-- Without a `CRC_INIT` among them, commands fold the bytes of their updates into the register, in order. -/
theorem crcAfter_eq_foldl {cs : List Command} (h : ∀ c ∈ cs, decode c ≠ .ok .crcInit) (crc : CrcWord) :
    crcAfter crc cs = (updateBytes cs).foldl crcStep crc := by
  induction cs generalizing crc with
  | nil => rfl
  | cons c cs ih =>
    obtain ⟨hc, hcs⟩ := List.forall_mem_cons.mp h
    cases hd : decode c with
    | error e =>
      rw [crcAfter_cons_error hd, ih hcs, updateBytes_cons_other (by simp [hd])]
    | ok i =>
      rw [crcAfter_cons_ok hd, ih hcs]
      cases i with
      | crcInit => exact absurd hd hc
      | crcUpdate d8 => rw [updateBytes_cons_update hd, List.foldl_cons, crcAfterInstr]
      | crcRead | regRead | regWrite | regRmw => rw [updateBytes_cons_other (by simp [hd]), crcAfterInstr]

/-- After a `CRC_INIT` the register is `compute` of the later updates, whatever it held (R73). -/
theorem crcAfter_init {before cs : List Command} (h : ∀ c ∈ cs, decode c ≠ .ok .crcInit) (crc : CrcWord) :
    crcAfter crc (before ++ encode .crcInit :: cs) = compute (updateBytes cs) := by
  have hinit : decode (encode .crcInit) = .ok .crcInit := rfl
  rw [crcAfter_append, crcAfter_cons_ok hinit, crcAfter_eq_foldl h]
  rfl

/-! ### Running the commands of an idle unit that no reset meets -/

/-- The unit is idle and its schedule holds no reset. -/
def State.Ready (s : State) : Prop := s.acc = .idle ∧ s.resetLine = []

theorem State.resetNow_of_nil {s : State} (h : s.resetLine = []) : s.resetNow = .quiet := by
  rw [State.resetNow, h]

theorem State.Ready.takes {s : State} (h : s.Ready) {c : Command} {cs : List Command} (hp : s.port = c :: cs) :
    s.Takes c := ⟨h.1, State.resetNow_of_nil h.2, by rw [hp]; rfl⟩

theorem State.Ready.taken {s : State} (h : s.Ready) : s.taken.Ready := by
  refine ⟨h.1, ?_⟩
  rw [State.taken_resetLine, h.2, List.tail_nil]

/-- From `s` to `t` the commands to come and the reset schedule stay as they were. -/
def State.SameInputs (s t : State) : Prop := t.port = s.port ∧ t.resetLine = s.resetLine

theorem State.dropAnswer_keeps (s : State) : s.dropAnswer.crc = s.crc ∧ s.SameInputs s.dropAnswer :=
  ⟨s.dropAnswer_crc, s.dropAnswer_port, s.dropAnswer_resetLine⟩

/-- An instruction on an idle unit writes the CRC register as `crcAfterInstr` says, whatever the bus answers. -/
theorem exec_crcAfterInstr {s : State} (h : s.acc = .idle) (i : Instr) :
    ∃ t, exec i s = .next t ∧ t.crc = crcAfterInstr s.crc i ∧ s.SameInputs t := by
  rcases exec_cases h i with ⟨hi, he⟩ | ⟨rfl, he⟩ | ⟨d8, rfl, he⟩ | ⟨rfl, he⟩ | ⟨n, ra, rfl, -, hread⟩ |
    ⟨n, wa, data, rfl, -, -, hwrite⟩ | ⟨n, ra, wa, mask, value, rfl, -, -, -, hrmw⟩
  · exact ⟨_, he, (crcAfterInstr_of_malformed _ hi).symm, rfl, rfl⟩
  · exact ⟨_, he, rfl, rfl, rfl⟩
  · exact ⟨_, he, rfl, rfl, rfl⟩
  · exact ⟨_, he, rfl, rfl, rfl⟩
  · obtain ⟨bytes, -, he⟩ | ⟨k, he⟩ := hread
    · exact ⟨_, he, s.dropAnswer_keeps⟩
    · exact ⟨_, he, s.dropAnswer_keeps⟩
  · obtain he | ⟨k, he⟩ := hwrite
    · exact ⟨_, he, s.dropAnswer_keeps⟩
    · exact ⟨_, he, s.dropAnswer_keeps⟩
  · obtain ⟨old, -, he⟩ | ⟨k, he⟩ := hrmw
    · exact ⟨_, he, s.dropAnswer_keeps⟩
    · exact ⟨_, he, s.dropAnswer_keeps⟩

/-- A command taken writes the CRC register as `crcAfter` says; one that fails decoding leaves it. -/
theorem runCommand_crcAfter {s : State} (h : s.acc = .idle) (c : Command) :
    ∃ t, s.runCommand c = .next t ∧ t.crc = crcAfter s.crc [c] ∧ s.SameInputs t := by
  cases hd : decode c with
  | ok i =>
    rw [runCommand_ok hd, crcAfter_cons_ok hd]
    exact exec_crcAfterInstr h i
  | error e => exact ⟨_, runCommand_error hd, (crcAfter_cons_error hd s.crc []).symm, rfl, rfl⟩

/-- The write that a busy unit owes leaves the CRC register and makes the unit idle. -/
theorem rmwWriteStep_keeps (s : State) (wa : Byte) (old new : List Byte) :
    (s.rmwWriteStep wa old new).acc = .idle ∧ (s.rmwWriteStep wa old new).crc = s.crc ∧
      s.SameInputs (s.rmwWriteStep wa old new) := by
  obtain he | ⟨k, he⟩ := rmwWriteStep_cases s wa old new
  · exact he ▸ ⟨rfl, s.dropAnswer_keeps⟩
  · exact he ▸ ⟨rfl, s.dropAnswer_keeps⟩

/-- One command from start to end: one step, or two where a `REG_RMW` owes its write after the first. -/
theorem run_command {s : State} (h : s.Ready) {c : Command} {cs : List Command} (hp : s.port = c :: cs) :
    ∃ k ≤ 2, ∃ t : State, Sys2Proof.core.run k s = .next t ∧ t.Ready ∧ t.port = cs ∧ t.crc = crcAfter s.crc [c] := by
  obtain ⟨t, ht, hcrc, hport, hline⟩ := runCommand_crcAfter (s := s.taken) h.1 c
  have hstep : Sys2Proof.core.step s = .next t := (step_takes (h.takes hp)).trans ht
  replace hport : t.port = cs := by rw [hport, State.taken_port, hp, List.tail_cons]
  replace hline : t.resetLine = [] := hline.trans h.taken.2
  cases ha : t.acc with
  | idle => exact ⟨1, by decide, t, run_succ hstep 0, ⟨ha, hline⟩, hport, hcrc⟩
  | rmwWrite wa n old new =>
    obtain ⟨hidle, hcrc', hport', hline'⟩ := rmwWriteStep_keeps t.passReset wa old new
    have hwrite : Sys2Proof.core.step t = .next (t.passReset.rmwWriteStep wa old new) :=
      step_owedWrite ha (State.resetNow_of_nil hline)
    refine ⟨2, le_rfl, _, (run_succ hstep 1).trans (run_succ hwrite 0), ⟨hidle, ?_⟩, ?_, ?_⟩
    · rw [hline', State.passReset_resetLine, hline, List.tail_nil]
    · rw [hport', State.passReset_port, hport]
    · rw [hcrc', State.passReset_crc, hcrc, State.taken_crc]

/-- The commands at the head of the port run in at most two steps each, and the CRC register follows them. -/
theorem run_commands {s : State} (h : s.Ready) {cs rest : List Command} (hp : s.port = cs ++ rest) :
    ∃ k ≤ 2 * cs.length, ∃ t : State, Sys2Proof.core.run k s = .next t ∧ t.Ready ∧ t.port = rest ∧
      t.crc = crcAfter s.crc cs := by
  induction cs generalizing s with
  | nil => exact ⟨0, le_rfl, s, rfl, h, hp, rfl⟩
  | cons c cs ih =>
    obtain ⟨k, hk, u, hrun, hready, hport, hcrc⟩ := run_command h hp
    obtain ⟨m, hm, t, hrun', hready', hport', hcrc'⟩ := ih hready hport
    refine ⟨k + m, ?_, t, (run_add hrun m).trans hrun', hready', hport', ?_⟩
    · rw [List.length_cons]
      omega
    · rw [hcrc', hcrc, ← crcAfter_append, List.singleton_append]

/-- Once its commands are done the unit waits, and no further step changes it. -/
theorem run_waits {s : State} (h : s.Ready) (hp : s.port = []) (k : Nat) : Sys2Proof.core.run k s = .next s := by
  have hpass : s.passReset = s := by
    rw [State.passReset, h.2, List.tail_nil, ← h.2]
  have hstep : Sys2Proof.core.step s = .next s :=
    (step_waits h.1 hp (State.resetNow_of_nil h.2)).trans (congrArg _ hpass)
  induction k with
  | zero => rfl
  | succ k ih => rw [run_succ hstep, ih]

/-- Settles O27: the commands before the last run to a register that is `compute` of the updates, `CRC_READ` answers
it, and the steps left are waiting. -/
theorem crcReadDependsOnlyOnTheUpdates : Obligations.CrcReadDependsOnlyOnTheUpdates := by
  unfold Obligations.CrcReadDependsOnlyOnTheUpdates
  intro s before cs hidle hline hcs hp
  obtain ⟨k, hk, u, hrun, hready, hport, hcrc⟩ := run_commands ⟨hidle, hline⟩ hp
  rw [crcAfter_init hcs] at hcrc
  have hdecode : decode (encode .crcRead) = .ok .crcRead := rfl
  have hread : Sys2Proof.core.step u = .next (u.taken.respond .ok (crcBytes u.crc)) :=
    (step_takes (hready.takes hport)).trans ((runCommand_ok hdecode).trans (exec_crcRead hready.1))
  have hdone : (u.taken.respond .ok (crcBytes u.crc)).Ready := hready.taken
  obtain ⟨m, hm⟩ : ∃ m, 2 * s.port.length = k + (m + 1) := by
    refine ⟨2 * s.port.length - k - 1, ?_⟩
    rw [hp, List.length_append, List.length_singleton]
    omega
  refine ⟨u.taken.respond .ok (crcBytes u.crc), ?_, ?_, hcrc⟩
  · rw [hm, run_add hrun, run_succ hread, run_waits hdone (by simp [hport])]
  · rw [State.respond_responses, List.getLast?_concat, hcrc]

end Machine

end Sys2Proof

/-! ## Obligations 36 and 37: the merge, byte by byte and bit by bit (41_regaccess.md R82, R93) -/

namespace Sys2Proof.Machine

/-- Each byte of the merge is the merge of the bytes at its place (R82). -/
theorem merge_getD {old mask value : List Byte} (hm : mask.length = old.length) (hv : value.length = old.length)
    {i : Nat} (hi : i < old.length) :
    (merge old mask value).getD i 0 = mergeByte (old.getD i 0) (mask.getD i 0) (value.getD i 0) := by
  induction old generalizing mask value i with
  | nil => exact absurd hi (Nat.not_lt_zero i)
  | cons o os ih =>
    match mask, value with
    | m :: ms, v :: vs =>
      cases i with
      | zero => rfl
      | succ i => exact ih (Nat.succ.inj hm) (Nat.succ.inj hv) (Nat.lt_of_succ_lt_succ hi)

/-- Each bit of a merged byte is the value bit or the old bit, as the mask bit says (R82). -/
theorem mergeByte_getLsbD (old mask value : Byte) {j : Nat} (hj : j < 8) :
    (mergeByte old mask value).getLsbD j = if mask.getLsbD j then value.getLsbD j else old.getLsbD j := by
  rw [mergeByte, BitVec.getLsbD_or, BitVec.getLsbD_and, BitVec.getLsbD_and, BitVec.getLsbD_not, decide_eq_true hj]
  cases mask.getLsbD j <;> simp

/-- Outside the mask a merged byte is the old byte (R93). -/
theorem mergeByte_and_not_mask (old mask value : Byte) : mergeByte old mask value &&& ~~~mask = old &&& ~~~mask := by
  apply BitVec.eq_of_getLsbD_eq
  intro j hj
  rw [BitVec.getLsbD_and, BitVec.getLsbD_and, BitVec.getLsbD_not, mergeByte_getLsbD _ _ _ hj]
  cases mask.getLsbD j <;> simp

/-- Settles O36: the bytes of the merge are `mergeByte`, whose bits the mask selects. -/
theorem mergeIsBitwise : Obligations.MergeIsBitwise := by
  unfold Obligations.MergeIsBitwise
  intro old mask value hm hv
  refine ⟨length_merge hm hv, fun i hi => ?_⟩
  rw [merge_getD hm hv hi]
  exact ⟨rfl, fun j hj => mergeByte_getLsbD _ _ _ hj⟩

/-- Settles O37: each byte of the merge agrees with the old one outside its mask byte. -/
theorem mergePreservesBitsOutsideMask : Obligations.MergePreservesBitsOutsideMask := by
  unfold Obligations.MergePreservesBitsOutsideMask
  intro old mask value hm hv i hi
  rw [merge_getD hm hv hi, mergeByte_and_not_mask]

end Sys2Proof.Machine

/-! ## Obligations 30, 31 and 33 to 35: the register commands (41_regaccess.md R83 to R92) -/

namespace Sys2Proof

open Machine

/-! ### The word of an encoded instruction -/

/-- A mask made of five fields acts on each field of a word. -/
theorem packWord_and (op n op' n' : BitVec 4) (ra wa d ra' wa' d' : Byte) :
    packWord op n ra wa d &&& packWord op' n' ra' wa' d' =
      packWord (op &&& op') (n &&& n') (ra &&& ra') (wa &&& wa') (d &&& d') := by
  unfold packWord
  ext i hi
  simp only [BitVec.getElem_and, BitVec.getElem_or, BitVec.getElem_shiftLeft, BitVec.getElem_setWidth]
  interval_cases i <;> simp

/-- A packed word that matches the row of `o`, with a width and operand bytes in order, decodes to the operands
assembled from it. -/
theorem decode_packWord {o : Opcode} {n : BitVec 4} {ra wa d : Byte} {ops : List Byte}
    (hm : packWord o.field n ra wa d &&& o.mask = o.pattern) (hw : o.hasWidth = true → LegalWidth n.toNat)
    (hl : ops.length = o.operandLength n.toNat) :
    decode ⟨packWord o.field n ra wa d, ops⟩ = .ok (o.assemble ⟨packWord o.field n ra wa d, ops⟩) := by
  refine decode_eq_ok.mpr ⟨o, opField_packWord .., hm, ?_, ?_, rfl⟩
  · rwa [widthField_packWord]
  · rwa [widthField_packWord]

/-- With operand bytes in order, those of a `REG_RMW` are its mask and then its value (R52). -/
theorem Opcode.assemble_regRmw {c : Command} (h : c.ops.length = 2 * widthField c.word) :
    Opcode.regRmw.assemble c = .regRmw (widthField c.word) (readAddrField c.word) (writeAddrField c.word)
      (c.ops.take (widthField c.word)) (c.ops.drop (widthField c.word)) := by
  rw [Opcode.assemble, valueOperand_eq_drop h, maskOperand]

/-- The command of a well-formed instruction decodes to it: the fields its format does not read are zero, so its row
matches, and every operand is read where it was put (R50 to R52). -/
theorem decode_encode {i : Instr} (h : i.WellFormed) : decode (encode i) = .ok i := by
  cases i with
  | crcInit | crcRead => rfl
  | crcUpdate d8 =>
    have hm : packWord 0x2 0 0 0 d8 &&& packWord 0xF 0xF 0xFF 0xFF 0 = packWord 0x2 0 0 0 0 := by
      simp [packWord_and]
    have hd := decode_packWord (o := .crcUpdate) (ops := []) hm nofun rfl
    rwa [Opcode.assemble, dataField_packWord] at hd
  | regRead n ra =>
    have hn : LegalWidth n := of_decide_eq_true h
    have hm : packWord 0x4 (BitVec.ofNat 4 n) ra 0 0 &&& packWord 0xF 0 0 0xFF 0xFF = packWord 0x4 0 0 0 0 := by
      simp [packWord_and]
    have hd := decode_packWord (o := .regRead) (ops := []) hm (fun _ => (width_fits hn).symm ▸ hn) rfl
    rwa [Opcode.assemble, widthField_packWord, width_fits hn, readAddrField_packWord] at hd
  | regWrite n wa data =>
    obtain ⟨hn, hdata⟩ : LegalWidth n ∧ data.length = n := of_decide_eq_true h
    have hm : packWord 0x5 (BitVec.ofNat 4 n) 0 wa 0 &&& packWord 0xF 0 0xFF 0 0xFF = packWord 0x5 0 0 0 0 := by
      simp [packWord_and]
    have hd := decode_packWord (o := .regWrite) (ops := data) hm (fun _ => (width_fits hn).symm ▸ hn)
      (hdata.trans (width_fits hn).symm)
    rwa [Opcode.assemble, widthField_packWord, width_fits hn, writeAddrField_packWord] at hd
  | regRmw n ra wa mask value =>
    obtain ⟨hn, hmask, hvalue⟩ : LegalWidth n ∧ mask.length = n ∧ value.length = n := of_decide_eq_true h
    have hm : packWord 0x6 (BitVec.ofNat 4 n) ra wa 0 &&& packWord 0xF 0 0 0 0xFF = packWord 0x6 0 0 0 0 := by
      simp [packWord_and]
    have hl : (mask ++ value).length = 2 * (BitVec.ofNat 4 n).toNat := by
      rw [width_fits hn, List.length_append, hmask, hvalue, Nat.two_mul]
    have hd := decode_packWord (o := .regRmw) hm (fun _ => (width_fits hn).symm ▸ hn) hl
    rwa [Opcode.assemble_regRmw (by rwa [widthField_packWord]), widthField_packWord, width_fits hn,
      readAddrField_packWord, writeAddrField_packWord, List.take_left' hmask, List.drop_left' hmask] at hd

namespace Machine

/-! ### A register command offered at the port -/

/-- A word of a `REG_*` operation, with its operand bytes, at the port (R59): its row matches the word when `p` holds,
the operand bytes are as many as the word announces when `q` holds, and it then stands for `i`. -/
theorem step_regRow {s : State} {w : CmdWord} {ops : List Byte} {o : Opcode} {p q : Prop} {i : Instr}
    (ht : s.Takes ⟨w, ops⟩) (hop : opField w = o.field) (ho : o.hasWidth = true)
    (hp : w &&& o.mask = o.pattern ↔ p) (hq : ops.length = o.operandLength (widthField w) ↔ q)
    (hi : q → o.assemble ⟨w, ops⟩ = i) :
    (¬ p → step s = .next (s.refused .illegalCommand)) ∧
    (p → ¬ LegalWidth (widthField w) ∨ ¬ q → step s = .next (s.refused .invalidConfiguration)) ∧
    (p → LegalWidth (widthField w) → q → step s = exec i s.taken) := by
  obtain ⟨hfields, hmatch⟩ := decode_checks_row o ⟨w, ops⟩ (congrArg BitVec.toNat hop) fun hl => hi (hq.mp hl)
  refine ⟨fun hn => step_refuses ht (hfields (mt hp.mp hn)), fun h hbad => ?_, fun h hn hl => ?_⟩
  · obtain ⟨hwidth, hlength⟩ := hmatch (hp.mpr h)
    by_cases hn : LegalWidth (widthField w)
    · have hl : ¬ q := hbad.resolve_left (not_not.mpr hn)
      exact step_refuses ht ((hlength fun _ => hn).1 (mt hq.mp hl))
    · exact step_refuses ht (hwidth ho hn)
  · rw [step_takes ht, runCommand_ok (((hmatch (hp.mpr h)).2 fun _ => hn).2 (hq.mpr hl))]

/-! ### The device's answers: a draw touches no other field, and no other update touches the draws -/

@[simp] theorem State.nextAnswer_record (s : State) (e : BusEvent) : (s.record e).nextAnswer = s.nextAnswer := rfl
@[simp] theorem State.nextAnswer_setAcc (s : State) (a : Acc) : (s.setAcc a).nextAnswer = s.nextAnswer := rfl
@[simp] theorem State.nextAnswer_passReset (s : State) : s.passReset.nextAnswer = s.nextAnswer := rfl
@[simp] theorem State.nextAnswer_taken (s : State) : s.taken.nextAnswer = s.nextAnswer := rfl

@[simp] theorem State.dropAnswer_record (s : State) (e : BusEvent) :
    (s.record e).dropAnswer = s.dropAnswer.record e := by
  cases h : s.answers <;> simp [State.dropAnswer, State.record, h]

@[simp] theorem State.dropAnswer_setAcc (s : State) (a : Acc) : (s.setAcc a).dropAnswer = s.dropAnswer.setAcc a := by
  cases h : s.answers <;> simp [State.dropAnswer, State.setAcc, h]

@[simp] theorem State.dropAnswer_passReset (s : State) : s.passReset.dropAnswer = s.dropAnswer.passReset := by
  cases h : s.answers <;> simp [State.dropAnswer, State.passReset, h]

@[simp] theorem State.dropAnswer_taken (s : State) : s.taken.dropAnswer = s.dropAnswer.taken := by
  cases h : s.answers <;> simp [State.dropAnswer, State.taken, h]

/-- The whole state after one answered transaction and the response that ends its command. -/
theorem State.transaction_respond_eq (s : State) (e : BusEvent) (st : Status) (data : List Byte) :
    (s.dropAnswer.record e).respond st data = { s.dropAnswer with
      history := s.history ++ [e], responses := s.responses ++ [⟨st, data⟩] } := by
  rw [State.respond, State.record, s.dropAnswer_history, s.dropAnswer_responses]

/-! ### `REG_READ` and `REG_WRITE` -/

/-- Settles O30: the row of `REG_READ` asks zero of `WA` and `D8` and takes no operand bytes. -/
theorem regReadCommand : Obligations.RegReadCommand := by
  unfold Obligations.RegReadCommand
  refine ⟨fun s n ra hidle hn => ⟨fun b hb => ⟨?_, length_answer_take b hn⟩, fun k hk => ?_⟩,
    fun s w ops ht hop => ?_⟩
  · rw [exec_regRead_ok hidle hn ra hb, State.transaction_respond_eq]
  · rw [exec_regRead_err hidle hn ra hk, State.transaction_respond_eq]
  · have hword : w &&& Opcode.regRead.mask = Opcode.regRead.pattern ↔ w &&& 0x0000FFFF = 0 :=
      Opcode.matches_iff_fields_zero hop
    exact step_regRow (o := .regRead) ht hop rfl hword List.length_eq_zero_iff fun _ => rfl

/-- Settles O31: the row of `REG_WRITE` asks zero of `RA` and `D8`, and its operand bytes are the data. -/
theorem regWriteCommand : Obligations.RegWriteCommand := by
  unfold Obligations.RegWriteCommand
  refine ⟨fun s n wa data hidle hn hl => ⟨fun b hb => ?_, fun k hk => ?_⟩, fun s w ops ht hop => ?_⟩
  · rw [exec_regWrite_ok hidle wa ⟨hn, hl⟩ hb, State.transaction_respond_eq]
  · rw [exec_regWrite_err hidle wa ⟨hn, hl⟩ hk, State.transaction_respond_eq]
  · have hword : w &&& Opcode.regWrite.mask = Opcode.regWrite.pattern ↔ w &&& 0x00FF00FF = 0 :=
      Opcode.matches_iff_fields_zero hop
    exact step_regRow (o := .regWrite) ht hop rfl hword Iff.rfl fun _ => rfl

/-! ### `REG_RMW`: the owed write -/

/-- The status a write's answer gives its command (R84, R87). -/
def WriteAnswer.status : WriteAnswer → Status
  | .ok => .ok
  | .err k => .busError k .write

/-- The owed write, whatever the answer. -/
theorem State.rmwWriteStep_eq (s : State) (wa : Byte) (old new : List Byte) :
    s.rmwWriteStep wa old new =
      ((s.dropAnswer.record (.wr wa new (writeAnswer s.nextAnswer))).setAcc .idle).respond
        (writeAnswer s.nextAnswer).status (old ++ new) := by
  cases ha : s.nextAnswer with
  | ok b => exact rmwWriteStep_ok wa old new ha
  | err k => exact rmwWriteStep_err wa old new ha

/-- The step of a busy unit as the whole next state (R87). -/
theorem step_owedWrite_eq {s : State} {wa : Byte} {n : Nat} {old new : List Byte}
    (h : s.acc = .rmwWrite wa n old new) (hr : s.resetNow = .quiet) :
    step s = .next { s.dropAnswer with
      acc := .idle
      resetLine := s.resetLine.tail
      history := s.history ++ [.wr wa new (writeAnswer s.nextAnswer)]
      responses := s.responses ++ [⟨(writeAnswer s.nextAnswer).status, old ++ new⟩] } := by
  rw [step_owedWrite h hr, State.rmwWriteStep_eq, State.dropAnswer_passReset, State.nextAnswer_passReset]
  simp [State.respond, State.setAcc, State.record, State.passReset]

/-- Settles O33: the one owed write, under each answer. -/
theorem regRmwWriteStep : Obligations.RegRmwWriteStep := by
  unfold Obligations.RegRmwWriteStep
  refine fun s wa n old new hacc hr => ⟨fun b hb => ?_, fun k hk => ?_⟩
  · rw [step_owedWrite_eq hacc hr, hb]
    rfl
  · rw [step_owedWrite_eq hacc hr, hk]
    rfl

/-! ### A well-formed instruction at the port -/

theorem step_encode {s : State} {i : Instr} (hi : i.WellFormed) (ht : s.Takes (encode i)) :
    step s = exec i s.taken := by
  rw [step_takes ht, runCommand_ok (decode_encode hi)]

section Rmw

variable {s : State} {n : Nat} {ra wa : Byte} {mask value : List Byte}
  (hi : (Instr.regRmw n ra wa mask value).WellFormed) (ht : s.Takes (encode (.regRmw n ra wa mask value)))
  (hline : s.resetLine = [])
include hi ht hline

/-- A `REG_RMW` whose read fails ends in that step, without a write (R88). -/
theorem step_regRmw_err {k : BusErrorKind} (hk : s.nextAnswer = .err k) :
    step s = .next { s.dropAnswer with
      port := s.port.tail
      history := s.history ++ [.rd ra n (.err k)]
      responses := s.responses ++ [⟨.busError k .read, []⟩] } := by
  rw [step_encode hi ht, exec_regRmw_err (s := s.taken) ht.1 ra wa (of_decide_eq_true hi) hk,
    State.transaction_respond_eq, State.dropAnswer_taken]
  simp [State.taken, hline]

/-- A `REG_RMW` whose read succeeds writes the merge of the bytes read in a second step, whatever these are and whatever
the write's answer (R85, R90). -/
theorem run_regRmw_ok {b : Vector Byte 5} (hb : s.nextAnswer = .ok b) :
    let old := b.toList.take n
    let new := merge old mask value
    let answer := writeAnswer s.dropAnswer.nextAnswer
    Sys2Proof.core.run 2 s = .next { s.dropAnswer.dropAnswer with
      port := s.port.tail
      history := s.history ++ [.rd ra n (.ok old), .wr wa new answer]
      responses := s.responses ++ [⟨answer.status, old ++ new⟩] } := by
  intro old new answer
  have hread : Sys2Proof.core.step s =
      .next ((s.taken.dropAnswer.record (.rd ra n (.ok old))).setAcc (.rmwWrite wa n old new)) :=
    (step_encode hi ht).trans (exec_regRmw_ok (s := s.taken) ht.1 ra wa (of_decide_eq_true hi) hb)
  have hquiet : ((s.taken.dropAnswer.record (.rd ra n (.ok old))).setAcc (.rmwWrite wa n old new)).resetNow = .quiet :=
    State.resetNow_of_nil (by simp [hline])
  have hidle : s.acc = .idle := ht.1
  refine (run_succ hread 1).trans ((run_succ (step_owedWrite_eq rfl hquiet) 0).trans ?_)
  simp [Host.Core.run, hline, hidle, answer]

end Rmw

/-- Settles O34: the two ways a `REG_RMW` can go, and the row of `REG_RMW`, which asks zero of `D8` and takes the mask
and the value. -/
theorem regRmwCommand : Obligations.RegRmwCommand := by
  unfold Obligations.RegRmwCommand
  refine ⟨fun s n ra wa mask value hi ht hline => ⟨fun k hk => step_regRmw_err hi ht hline hk, fun b hb => ?_⟩,
    fun s w ops ht hop => ?_⟩
  · refine ⟨fun b' hb' => ?_, fun k hk => ?_⟩
    · rw [run_regRmw_ok hi ht hline hb, hb']
      rfl
    · rw [run_regRmw_ok hi ht hline hb, hk]
      rfl
  · have hword : w &&& Opcode.regRmw.mask = Opcode.regRmw.pattern ↔ w &&& 0x000000FF = 0 :=
      Opcode.matches_iff_fields_zero hop
    exact step_regRow (o := .regRmw) ht hop rfl hword Iff.rfl (Opcode.assemble_regRmw (c := ⟨w, ops⟩))

/-- A well-formed `REG_WRITE` at the port issues its write, whatever the answer (R84). -/
theorem step_regWrite_history {s : State} {n : Nat} {wa : Byte} {data : List Byte}
    (hi : (Instr.regWrite n wa data).WellFormed) (ht : s.Takes (encode (.regWrite n wa data))) :
    ∃ t, step s = .next t ∧ t.history = s.history ++ [.wr wa data (writeAnswer s.nextAnswer)] := by
  have hf : LegalWidth n ∧ data.length = n := of_decide_eq_true hi
  rw [step_encode hi ht]
  cases ha : s.nextAnswer with
  | ok b => exact ⟨_, exec_regWrite_ok (s := s.taken) ht.1 wa hf ha, by simp⟩
  | err k => exact ⟨_, exec_regWrite_err (s := s.taken) ht.1 wa hf ha, by simp⟩

/-- Settles O35: the write is there under every answer, with no condition on the merge or the data. -/
theorem writesAreNeverElided : Obligations.WritesAreNeverElided := by
  unfold Obligations.WritesAreNeverElided
  refine ⟨fun s n ra wa mask value b hi ht hline hb => ⟨_, _, run_regRmw_ok hi ht hline hb, rfl⟩,
    fun s n wa data hi ht => ?_⟩
  obtain ⟨t, hstep, hhistory⟩ := step_regWrite_history hi ht
  exact ⟨t, _, hstep, hhistory⟩

end Machine

end Sys2Proof

/-! ## Obligation 42: what each command leaves and issues, for each outcome (60_exceptions.md R99) -/

namespace Sys2Proof

open Machine

/-- What decoding answers is well formed: the checks of R59 leave a legal width and operand bytes of its length. -/
theorem wellFormed_of_decode {c : Command} {i : Instr} (h : decode c = .ok i) : i.WellFormed := by
  obtain ⟨o, -, -, hwidth, hlength, rfl⟩ := decode_eq_ok.mp h
  cases o with
  | crcInit | crcUpdate | crcRead => rfl
  | regRead => exact decide_eq_true (hwidth rfl)
  | regWrite => exact decide_eq_true ⟨hwidth rfl, hlength⟩
  | regRmw =>
    have hl : c.ops.length = 2 * widthField c.word := hlength
    rw [Opcode.assemble_regRmw hl]
    refine decide_eq_true ⟨hwidth rfl, ?_, ?_⟩
    · rw [List.length_take]
      omega
    · rw [List.length_drop]
      omega

namespace Machine

/-- A failed check is reported by one of two statuses (R96). -/
theorem errorStatus_cases (e : DecodeError) :
    errorStatus e = .illegalCommand ∨ errorStatus e = .invalidConfiguration := by
  cases e with
  | reservedOp | nonzeroField => exact .inl rfl
  | badWidth | badOperandLength => exact .inr rfl

theorem WriteAnswer.status_cases (a : WriteAnswer) : a.status = .ok ∨ ∃ k, a.status = .busError k .write := by
  cases a with
  | ok => exact .inl rfl
  | err k => exact .inr ⟨k, rfl⟩

theorem step_of_decode {s : State} {c : Command} {i : Instr} (ht : s.Takes c) (hd : decode c = .ok i) :
    step s = exec i s.taken := by
  rw [step_takes ht, runCommand_ok hd]

/-- `REG_READ` is one read and its response, whatever the answer (R83). -/
theorem exec_regRead_outcome {s : State} (h : s.acc = .idle) {n : Nat} (hn : LegalWidth n) (ra : Byte) :
    ∃ a st data, exec (.regRead n ra) s = .next ((s.dropAnswer.record (.rd ra n a)).respond st data) ∧
      (st = .ok ∨ ∃ k, st = .busError k .read) := by
  cases ha : s.nextAnswer with
  | ok b => exact ⟨_, _, _, exec_regRead_ok h hn ra ha, .inl rfl⟩
  | err k => exact ⟨_, _, _, exec_regRead_err h hn ra ha, .inr ⟨k, rfl⟩⟩

/-- `REG_WRITE` is one write and its response, whatever the answer (R84). -/
theorem exec_regWrite_outcome {s : State} (h : s.acc = .idle) {n : Nat} (wa : Byte) {data : List Byte}
    (hf : LegalWidth n ∧ data.length = n) :
    ∃ a st out, exec (.regWrite n wa data) s = .next ((s.dropAnswer.record (.wr wa data a)).respond st out) ∧
      (st = .ok ∨ ∃ k, st = .busError k .write) := by
  cases ha : s.nextAnswer with
  | ok b => exact ⟨_, _, _, exec_regWrite_ok h wa hf ha, .inl rfl⟩
  | err k => exact ⟨_, _, _, exec_regWrite_err h wa hf ha, .inr ⟨k, rfl⟩⟩

/-- An answered read of `REG_RMW` leaves the unit owing the merge of the bytes read, with no response yet (R85, R86). -/
theorem exec_regRmw_owes {s : State} (h : s.acc = .idle) {n : Nat} (ra wa : Byte) {mask value : List Byte}
    (hf : LegalWidth n ∧ mask.length = n ∧ value.length = n) {b : Vector Byte 5} (ha : s.nextAnswer = .ok b) :
    ∃ t old, exec (.regRmw n ra wa mask value) s = .next t ∧ t.acc = .rmwWrite wa n old (merge old mask value) ∧
      t.crc = s.crc ∧ t.resetLine = s.resetLine ∧ t.history = s.history ++ [.rd ra n (.ok old)] ∧
      t.responses = s.responses :=
  ⟨_, _, exec_regRmw_ok h ra wa hf ha, rfl, by simp, by simp, by simp, by simp⟩

/-- The step of a busy unit is one write and its response, whatever the answer (R87). -/
theorem step_owedWrite_outcome {s : State} {wa : Byte} {n : Nat} {old new : List Byte}
    (h : s.acc = .rmwWrite wa n old new) (hr : s.resetNow = .quiet) :
    ∃ u a r, step s = .next u ∧ u.crc = s.crc ∧ u.acc = .idle ∧ u.history = s.history ++ [.wr wa new a] ∧
      u.responses = s.responses ++ [r] ∧ (r.status = .ok ∨ ∃ k, r.status = .busError k .write) :=
  ⟨_, _, _, step_owedWrite_eq h hr, s.dropAnswer_crc, rfl, rfl, rfl, WriteAnswer.status_cases _⟩

/-- Settles O42: the command fails a check, or its instruction is well formed and makes its transactions; a `REG_RMW`
whose read is answered makes its write in a second step, which no reset meets. -/
theorem stateAfterEachOutcome : Obligations.StateAfterEachOutcome := by
  unfold Obligations.StateAfterEachOutcome
  intro s c ht hline
  have hidle : s.taken.acc = .idle := ht.1
  cases hd : decode c with
  | error e => exact ⟨_, step_refuses ht hd, rfl, hidle, rfl, _, errorStatus_cases e, rfl⟩
  | ok i =>
    have hstep := step_of_decode ht hd
    have hi := wellFormed_of_decode hd
    cases i with
    | crcInit => exact ⟨_, hstep.trans (exec_crcInit hidle), rfl, hidle, rfl, rfl⟩
    | crcUpdate d => exact ⟨_, hstep.trans (exec_crcUpdate hidle d), rfl, hidle, rfl, rfl⟩
    | crcRead => exact ⟨_, hstep.trans (exec_crcRead hidle), rfl, hidle, rfl, rfl⟩
    | regRead n ra =>
      obtain ⟨a, st, data, he, hst⟩ := exec_regRead_outcome hidle (of_decide_eq_true hi) ra
      exact ⟨_, hstep.trans he, by simp, by simpa using hidle, a, ⟨st, data⟩, by simp, by simp, hst⟩
    | regWrite n wa data =>
      obtain ⟨a, st, out, he, hst⟩ := exec_regWrite_outcome hidle wa (of_decide_eq_true hi)
      exact ⟨_, hstep.trans he, by simp, by simpa using hidle, a, ⟨st, out⟩, by simp, by simp, hst⟩
    | regRmw n ra wa mask value =>
      cases ha : s.taken.nextAnswer with
      | err k =>
        have he := exec_regRmw_err hidle ra wa (of_decide_eq_true hi) ha
        exact ⟨_, hstep.trans he, by simp, .inl ⟨by simpa using hidle, k, by simp, by simp⟩⟩
      | ok b =>
        obtain ⟨t, old, he, howes, hcrc, htline, hhistory, hresponses⟩ :=
          exec_regRmw_owes hidle ra wa (of_decide_eq_true hi) ha
        have hquiet : t.resetNow = .quiet := State.resetNow_of_nil (by simp [htline, hline])
        obtain ⟨u, a, r, hwrite, hucrc, huidle, huhistory, huresponses, hst⟩ := step_owedWrite_outcome howes hquiet
        exact ⟨t, hstep.trans he, hcrc, .inr ⟨u, old, a, r, hwrite, hucrc.trans hcrc, huidle, hresponses,
          by simp [huhistory, hhistory], by rw [huresponses, hresponses, State.taken_responses], hst⟩⟩

end Machine

end Sys2Proof

namespace Sys2Proof
open Machine

/-! ## Obligations 10 to 15: the encoding, the status byte and the assembler (30_encoding.md) -/

/-! ### A command that decodes is an encoding -/

/-- Where the mask of a row has only ones, a word that matches the row has the row's own bits (R55). -/
theorem Opcode.extractLsb'_of_matches {o : Opcode} {w : CmdWord} (hm : w &&& o.mask = o.pattern) {start len : Nat}
    (hones : o.mask.extractLsb' start len = BitVec.allOnes len) :
    w.extractLsb' start len = o.pattern.extractLsb' start len := by
  rw [← hm, BitVec.extractLsb'_and, hones, BitVec.and_allOnes]

/-- A word is packed from its operation, the number in its field `N`, and its other fields (R50). -/
theorem packWord_widthField {w : CmdWord} {o : Opcode} (hop : opField w = o.field) :
    packWord o.field (BitVec.ofNat 4 (widthField w)) (readAddrField w) (writeAddrField w) (dataField w) = w := by
  have hn : BitVec.ofNat 4 (widthField w) = w.extractLsb' 24 4 :=
    (BitVec.ofNat_toNat ..).trans (BitVec.setWidth_eq _)
  rw [hn, ← hop, packWord_fields]

/-- The operands assembled from a command that passes the checks are encoded as that command: the fields its format
does not read are those its row holds at zero. -/
theorem encode_assemble {o : Opcode} {c : Command} (hop : opField c.word = o.field)
    (hm : c.word &&& o.mask = o.pattern) (hl : c.ops.length = o.operandLength (widthField c.word)) :
    encode (o.assemble c) = c := by
  obtain ⟨w, ops⟩ := c
  cases o with
  | crcInit | crcRead =>
    obtain rfl : w = _ := (Opcode.matches_iff_of_full_mask rfl).mp hm
    obtain rfl : ops = [] := List.length_eq_zero_iff.mp hl
    rfl
  | crcUpdate =>
    obtain rfl : ops = [] := List.length_eq_zero_iff.mp hl
    have hn : widthField w = 0 := congrArg BitVec.toNat (Opcode.extractLsb'_of_matches hm (start := 24) (len := 4) rfl)
    have hra : readAddrField w = 0 := Opcode.extractLsb'_of_matches hm rfl
    have hwa : writeAddrField w = 0 := Opcode.extractLsb'_of_matches hm rfl
    have hw := packWord_widthField hop
    rw [hn, hra, hwa] at hw
    exact congrArg (Command.mk · []) hw
  | regRead =>
    obtain rfl : ops = [] := List.length_eq_zero_iff.mp hl
    have hwa : writeAddrField w = 0 := Opcode.extractLsb'_of_matches hm rfl
    have hd : dataField w = 0 := Opcode.extractLsb'_of_matches hm rfl
    have hw := packWord_widthField hop
    rw [hwa, hd] at hw
    exact congrArg (Command.mk · []) hw
  | regWrite =>
    have hra : readAddrField w = 0 := Opcode.extractLsb'_of_matches hm rfl
    have hd : dataField w = 0 := Opcode.extractLsb'_of_matches hm rfl
    have hw := packWord_widthField hop
    rw [hra, hd] at hw
    exact congrArg (Command.mk · ops) hw
  | regRmw =>
    have hd : dataField w = 0 := Opcode.extractLsb'_of_matches hm rfl
    have hw := packWord_widthField hop
    rw [hd] at hw
    rw [Opcode.assemble_regRmw hl, encode, List.take_append_drop]
    exact congrArg (Command.mk · ops) hw

namespace Machine

/-- Settles O10: the round trip that `decode_encode` proves instruction by instruction. -/
theorem decodeOfEncodeIsTheInstruction : Obligations.DecodeOfEncodeIsTheInstruction := by
  unfold Obligations.DecodeOfEncodeIsTheInstruction
  exact fun i => decode_encode

/-- Settles O11: what decodes has passed the checks of its operation, so its operands are encoded as it. -/
theorem encodeOfDecodeIsTheCommand : Obligations.EncodeOfDecodeIsTheCommand := by
  unfold Obligations.EncodeOfDecodeIsTheCommand
  intro c i hd
  obtain ⟨o, hop, hm, -, hl, rfl⟩ := decode_eq_ok.mp hd
  exact ⟨wellFormed_of_decode hd, encode_assemble hop hm hl⟩

end Machine

/-! ### The serialised form -/

/-- The bytes of a word, most significant first, give the word back (R49). -/
theorem wordOfBytes_extractLsb' (w : CmdWord) :
    wordOfBytes (w.extractLsb' 24 8) (w.extractLsb' 16 8) (w.extractLsb' 8 8) (w.extractLsb' 0 8) = w := by
  unfold wordOfBytes
  ext i hi
  simp only [BitVec.getElem_or, BitVec.getElem_shiftLeft, BitVec.getElem_setWidth,
    BitVec.getLsbD_extractLsb']
  interval_cases i <;> simp [BitVec.getLsbD_eq_getElem]

theorem Command.ofBytes_bytes_append (c : Command) (rest : List Byte) :
    Command.ofBytes (c.bytes ++ rest) = some ⟨c.word, c.ops ++ rest⟩ :=
  congrArg (fun w => some (Command.mk w (c.ops ++ rest))) (wordOfBytes_extractLsb' c.word)

/-- A well-formed instruction's operand bytes are as many as its word announces (R58). -/
theorem length_ops_encode {i : Instr} (h : i.WellFormed) : (encode i).ops.length = wordOperandLength (encode i).word :=
  match i with
  | .crcInit => Laws.EncodedLength.crcInit h
  | .crcUpdate d8 => Laws.EncodedLength.crcUpdate d8 h
  | .crcRead => Laws.EncodedLength.crcRead h
  | .regRead n ra => Laws.EncodedLength.regRead n ra h
  | .regWrite n wa data => Laws.EncodedLength.regWrite n wa data h
  | .regRmw n ra wa mask value => Laws.EncodedLength.regRmw n ra wa mask value h

/-- A command with as many operand bytes as its word announces is read whole from a stream (R58). -/
theorem Command.next_bytes_append {c : Command} (h : c.ops.length = wordOperandLength c.word) (rest : List Byte) :
    Command.next (c.bytes ++ rest) = some (c, rest) := by
  have hlong : ¬ (c.ops ++ rest).length < wordOperandLength c.word := by
    rw [List.length_append, h]
    omega
  simp only [Command.next, Command.ofBytes_bytes_append]
  rw [if_neg hlong, List.take_left' h, List.drop_left' h]

namespace Machine

/-- Settles O12: the four bytes of the word are read back, and then as many operand bytes as it announces. -/
theorem serialisedCommandReadsBack : Obligations.SerialisedCommandReadsBack := by
  unfold Obligations.SerialisedCommandReadsBack
  refine ⟨fun c => ⟨?_, rfl, rfl⟩, fun i rest hi => Command.next_bytes_append (length_ops_encode hi) rest⟩
  have hread := Command.ofBytes_bytes_append c []
  rwa [List.append_nil, List.append_nil] at hread

/-- Settles O13: each of the six words is decoded by evaluation. -/
theorem specWordsDecode : Obligations.SpecWordsDecode := by
  unfold Obligations.SpecWordsDecode
  exact ⟨rfl, rfl, rfl, rfl, rfl, rfl⟩

/-! ### The status byte -/

/-- Every status: the three without a bus error, and a bus error of each kind and phase (R62). -/
def Status.all : List Status :=
  [.ok, .invalidConfiguration, .illegalCommand,
    .busError .absent .read, .busError .nack .read, .busError .timeout .read, .busError .other .read,
    .busError .absent .write, .busError .nack .write, .busError .timeout .write, .busError .other .write]

theorem Status.mem_all (st : Status) : st ∈ Status.all := by
  cases st with
  | ok | invalidConfiguration | illegalCommand => decide
  | busError k p => cases p <;> cases k <;> decide

theorem Status.byte_injective : Function.Injective Status.byte := fun st st' h =>
  have hnodup : (Status.all.map Status.byte).Nodup := by decide
  List.inj_on_of_nodup_map hnodup st.mem_all st'.mem_all h

/-- Settles O14: the layout status by status; no two of the eleven bytes are equal. -/
theorem statusByteLayout : Obligations.StatusByteLayout := by
  unfold Obligations.StatusByteLayout
  refine ⟨fun st => ?_, fun _ _ h => Status.byte_injective h, fun _ => rfl⟩
  cases st with
  | ok | invalidConfiguration | illegalCommand => exact ⟨rfl, rfl⟩
  | busError k p => cases p <;> cases k <;> exact ⟨rfl, rfl, rfl, rfl⟩

/-! ### The assembler -/

theorem fitByte_eq_some {v : Nat} {b : Byte} : fitByte v = some b ↔ v < 256 ∧ BitVec.ofNat 8 v = b := by
  rw [fitByte]
  split <;> simp [*]

theorem fitBytes_eq_some {vs : List Nat} {bs : List Byte} :
    fitBytes vs = some bs ↔ (∀ v ∈ vs, v < 256) ∧ vs.map (BitVec.ofNat 8) = bs := by
  induction vs generalizing bs with
  | nil => simp [fitBytes]
  | cons v vs ih =>
    rw [fitBytes, List.forall_mem_cons, List.map_cons]
    constructor
    · intro h
      split at h
      · rename_i b bs' hv hvs
        cases h
        obtain ⟨hlt, rfl⟩ := fitByte_eq_some.mp hv
        obtain ⟨hlts, rfl⟩ := ih.mp hvs
        exact ⟨⟨hlt, hlts⟩, rfl⟩
      · cases h
    · rintro ⟨⟨hlt, hlts⟩, rfl⟩
      rw [fitByte_eq_some.mpr ⟨hlt, rfl⟩, ih.mpr ⟨hlts, rfl⟩]

theorem isSome_checked (i : Instr) : (checked i).isSome = true ↔ i.WellFormed := Option.isSome_ite

/-- What passes the assembler's check is one well-formed instruction (R63). -/
theorem wellFormed_of_checked {i : Instr} {is : List Instr} (h : checked i = some is) : ∀ j ∈ is, j.WellFormed := by
  rw [checked] at h
  split at h
  · cases h
    simpa
  · cases h

theorem wellFormed_of_mem_crcCompute {bytes : List Byte} {i : Instr} (h : i ∈ crcCompute bytes) : i.WellFormed := by
  simp only [crcCompute, List.mem_append, List.mem_cons, List.mem_map, List.not_mem_nil, or_false] at h
  obtain (rfl | ⟨d8, -, rfl⟩) | rfl := h <;> rfl

/-- Every instruction a line stands for is well formed: it has passed the check or is one of `CRC_COMPUTE`'s. -/
theorem AsmLine.wellFormed_of_instrs {line : AsmLine} {is : List Instr} (h : line.instrs = some is) :
    ∀ i ∈ is, i.WellFormed := by
  cases line with
  | crcInit | crcRead => exact wellFormed_of_checked h
  | crcUpdate | regRead | regWrite | regRmw | regSet | regClear =>
    simp only [AsmLine.instrs] at h
    split at h
    · exact wellFormed_of_checked h
    · cases h
  | crcCompute bytes =>
    simp only [AsmLine.instrs] at h
    split at h
    · cases h
      exact fun i => wellFormed_of_mem_crcCompute
    · cases h
  | regField =>
    simp only [AsmLine.instrs] at h
    split at h
    · split at h
      · exact wellFormed_of_checked h
      · cases h
    · cases h

theorem isSome_assemble (line : AsmLine) : (assemble line).isSome = line.instrs.isSome := Option.isSome_map

theorem isSome_assemble_crcUpdate (d : Nat) : (assemble (.crcUpdate d)).isSome = true ↔ d < 256 := by
  rw [isSome_assemble, AsmLine.instrs]
  constructor
  · intro h
    split at h
    · exact (fitByte_eq_some.mp ‹_›).1
    · cases h
  · intro hd
    rw [fitByte_eq_some.mpr ⟨hd, rfl⟩]
    rfl

theorem isSome_assemble_regRead (n ra : Nat) :
    (assemble (.regRead n ra)).isSome = true ↔ LegalWidth n ∧ ra < 256 := by
  rw [isSome_assemble, AsmLine.instrs]
  constructor
  · intro h
    split at h
    · exact ⟨of_decide_eq_true ((isSome_checked _).mp h), (fitByte_eq_some.mp ‹_›).1⟩
    · cases h
  · rintro ⟨hn, hra⟩
    rw [fitByte_eq_some.mpr ⟨hra, rfl⟩]
    exact (isSome_checked _).mpr (decide_eq_true hn)

theorem isSome_assemble_regWrite (n wa : Nat) (data : List Nat) :
    (assemble (.regWrite n wa data)).isSome = true ↔
      LegalWidth n ∧ wa < 256 ∧ data.length = n ∧ ∀ b ∈ data, b < 256 := by
  rw [isSome_assemble, AsmLine.instrs]
  constructor
  · intro h
    split at h
    · rename_i hwa hdata
      obtain ⟨hlt, rfl⟩ := fitBytes_eq_some.mp hdata
      obtain ⟨hn, hlen⟩ := of_decide_eq_true ((isSome_checked _).mp h)
      exact ⟨hn, (fitByte_eq_some.mp hwa).1, List.length_map _ ▸ hlen, hlt⟩
    · cases h
  · rintro ⟨hn, hwa, hlen, hdata⟩
    rw [fitByte_eq_some.mpr ⟨hwa, rfl⟩, fitBytes_eq_some.mpr ⟨hdata, rfl⟩]
    exact (isSome_checked _).mpr (decide_eq_true ⟨hn, (List.length_map _).trans hlen⟩)

theorem isSome_assemble_regRmw (n ra wa : Nat) (mask value : List Nat) :
    (assemble (.regRmw n ra wa mask value)).isSome = true ↔
      LegalWidth n ∧ ra < 256 ∧ wa < 256 ∧ mask.length = n ∧ value.length = n ∧
        (∀ b ∈ mask, b < 256) ∧ ∀ b ∈ value, b < 256 := by
  rw [isSome_assemble, AsmLine.instrs]
  constructor
  · intro h
    split at h
    · rename_i hra hwa hmask hvalue
      obtain ⟨hmlt, rfl⟩ := fitBytes_eq_some.mp hmask
      obtain ⟨hvlt, rfl⟩ := fitBytes_eq_some.mp hvalue
      obtain ⟨hn, hmlen, hvlen⟩ := of_decide_eq_true ((isSome_checked _).mp h)
      rw [List.length_map] at hmlen hvlen
      exact ⟨hn, (fitByte_eq_some.mp hra).1, (fitByte_eq_some.mp hwa).1, hmlen, hvlen, hmlt, hvlt⟩
    · cases h
  · rintro ⟨hn, hra, hwa, hmlen, hvlen, hmask, hvalue⟩
    rw [fitByte_eq_some.mpr ⟨hra, rfl⟩, fitByte_eq_some.mpr ⟨hwa, rfl⟩, fitBytes_eq_some.mpr ⟨hmask, rfl⟩,
      fitBytes_eq_some.mpr ⟨hvalue, rfl⟩]
    exact (isSome_checked _).mpr
      (decide_eq_true ⟨hn, (List.length_map _).trans hmlen, (List.length_map _).trans hvlen⟩)

/-- Settles O15: what a line emits is the encoding of well-formed instructions, which decodes. -/
theorem assemblerEmitsOnlyLegalCommands : Obligations.AssemblerEmitsOnlyLegalCommands := by
  unfold Obligations.AssemblerEmitsOnlyLegalCommands
  refine ⟨fun line cs hline c hc => ?_, isSome_assemble_crcUpdate, isSome_assemble_regRead,
    isSome_assemble_regWrite, isSome_assemble_regRmw⟩
  obtain ⟨is, his, rfl⟩ := Option.map_eq_some_iff.mp hline
  obtain ⟨i, hi, rfl⟩ := List.mem_map.mp hc
  exact ⟨i, decode_encode (AsmLine.wellFormed_of_instrs his i hi)⟩

end Machine

end Sys2Proof

/-! ## Obligations 20 to 25: the CRC function and its forms (40_crc.md R66 to R79) -/

namespace Sys2Proof.Machine

/-! ### The byte step is linear -/

/-- The step of XORed registers and bytes is the XOR of the steps: the byte enters by XOR, and the turns are linear. -/
theorem crcStep_xor (c c' : CrcWord) (d d' : Byte) : crcStep (c ^^^ c') (d ^^^ d') = crcStep c d ^^^ crcStep c' d' := by
  simp only [crcStep, ← crcShifts_xor, BitVec.setWidth_xor, BitVec.shiftLeft_xor_distrib]
  congr 1
  ac_rfl

/-- Folding two sequences of one length is linear in registers and bytes. -/
theorem foldl_crcStep_xor {a b : List Byte} (h : a.length = b.length) (c c' : CrcWord) :
    (List.zipWith (fun x y => x ^^^ y) a b).foldl crcStep (c ^^^ c') = a.foldl crcStep c ^^^ b.foldl crcStep c' := by
  induction a generalizing b c c' with
  | nil =>
    obtain rfl : b = [] := List.length_eq_zero_iff.mp h.symm
    rfl
  | cons d ds ih =>
    match b with
    | e :: es =>
      rw [List.zipWith_cons_cons, List.foldl_cons, crcStep_xor, ih (Nat.succ.inj h), List.foldl_cons, List.foldl_cons]

theorem zipWith_xor_zeros (b : List Byte) : List.zipWith (fun x y => x ^^^ y) b (List.replicate b.length 0x00) = b := by
  induction b with
  | nil => rfl
  | cons d ds ih =>
    rw [List.length_cons, List.replicate_succ, List.zipWith_cons_cons, ih]
    exact congrArg (· :: ds) BitVec.xor_zero

/-- Settles O22: the seed of the XOR is the seed of `a` with that of `b` and that of the zeros cancelled. -/
theorem crcIsLinear : Obligations.CrcIsLinear := by
  unfold Obligations.CrcIsLinear
  refine ⟨crcStep_xor, fun a b h => ?_⟩
  have hzeros := foldl_crcStep_xor (b := List.replicate b.length 0x00) List.length_replicate.symm
    Config.crcSeed Config.crcSeed
  rw [zipWith_xor_zeros, BitVec.xor_self] at hzeros
  have hxor := foldl_crcStep_xor h Config.crcSeed 0#16
  rw [BitVec.xor_zero] at hxor
  rw [compute, hxor, hzeros, ← BitVec.xor_assoc, h]
  rfl

/-! ### The register's high byte goes through the turns with the data byte, its low byte moves up -/

/-- Turns of the loop that bring no one into bit 15 only shift. -/
theorem crcShifts_eq_shiftLeft {k : Nat} {t : CrcWord} (hk : k ≤ 16) (h : ∀ i, 16 - k ≤ i → t.getLsbD i = false) :
    crcShifts k t = t <<< k := by
  induction k generalizing t with
  | zero => rw [crcShifts, BitVec.shiftLeft_zero]
  | succ k ih =>
    have hturn : crcShift t = t <<< 1 := by rw [crcShift_eq, h 15 (by omega)]; simp
    rw [crcShifts, hturn, ih (by omega), ← BitVec.shiftLeft_add, Nat.add_comm]
    intro i hi
    by_cases h0 : i < 1
    · simp [h0]
    · simp [h (i - 1) (by omega)]

/-- Eight turns on a register whose high byte is zero move its low byte up. -/
theorem crcShifts_setWidth (d : Byte) : crcShifts 8 (d.setWidth 16) = d.setWidth 16 <<< 8 :=
  crcShifts_eq_shiftLeft (by decide) fun i hi => by
    rw [BitVec.getLsbD_setWidth, BitVec.getLsbD_of_ge d i hi, Bool.and_false]

/-- A register is its low byte and its high byte. -/
theorem xor_of_bytes (c : CrcWord) :
    (c.extractLsb' 0 8).setWidth 16 ^^^ ((c.extractLsb' 8 8).setWidth 16 <<< 8) = c := by
  ext i hi
  by_cases h : i < 8
  · simp [h, BitVec.getLsbD_eq_getElem hi]
  · have h8 : i - 8 < 8 := by omega
    simp [h, h8, Nat.add_sub_cancel' (Nat.le_of_not_lt h), BitVec.getLsbD_eq_getElem hi]

/-- The byte step: the high byte meets the data byte and runs through the turns alone, the low byte moves up. -/
theorem crcStep_eq (c : CrcWord) (d : Byte) :
    crcStep c d = ((c.extractLsb' 0 8).setWidth 16 <<< 8) ^^^ crcStep 0#16 (c.extractLsb' 8 8 ^^^ d) := by
  rw [← crcShifts_setWidth, crcStep, crcStep, ← crcShifts_xor, BitVec.zero_xor, BitVec.setWidth_xor,
    BitVec.shiftLeft_xor_distrib, ← BitVec.xor_assoc, xor_of_bytes]

/-- Settles O23: the high byte appended cancels the register's high byte and leaves the low one at the top, which the
second byte cancels. -/
theorem crcResidue : Obligations.CrcResidue := by
  unfold Obligations.CrcResidue
  refine ⟨fun s => ?_, by decide +kernel⟩
  have hzero : crcStep 0#16 0#8 = 0#16 := rfl
  rw [compute_append, List.foldl_cons, List.foldl_cons, List.foldl_nil, crcStep_eq (compute s), BitVec.xor_self, hzero,
    BitVec.xor_zero, crcStep, BitVec.xor_self]
  rfl

/-! ### The bit-serial form -/

/-- A turn on a register into which `w` is XORed is the single-bit step with the top bit of `w`; the rest of `w` moves
up to meet the next turns. -/
theorem crcShift_xor_eq_crcBit (c w : CrcWord) : crcShift (c ^^^ w) = crcBit c (w.getLsbD 15) ^^^ (w <<< 1) := by
  rw [crcShift_eq, crcBit, BitVec.getLsbD_xor, BitVec.shiftLeft_xor_distrib]
  ac_rfl

/-- Settles O20: in each of the eight turns the bit of the byte at the top enters, and the byte is then used up. -/
theorem crcStepIsBitSerialMsbFirst : Obligations.CrcStepIsBitSerialMsbFirst := by
  unfold Obligations.CrcStepIsBitSerialMsbFirst
  intro c d
  simp only [crcStep, crcShifts, crcShift_xor_eq_crcBit, crcStepSerial, bitsMsbFirst, List.foldl]
  simp [← BitVec.shiftLeft_add]

/-! ### The parallel form -/

/-- The parallel form of a register that holds zero, for each of the 256 bytes that can enter. -/
theorem crcStep_zero_getLsbD :
    ∀ (d : Byte) (i : Fin 16), (crcStep 0#16 d).getLsbD i = crcStepParallelBit 0#16 d i := by
  decide +kernel

/-- In the table of R68 too the high byte and the data byte occur only as their XOR, and the low byte moves up. -/
theorem crcStepParallelBit_eq (c : CrcWord) (d : Byte) {i : Nat} (hi : i < 16) :
    crcStepParallelBit c d i = (((c.extractLsb' 0 8).setWidth 16 <<< 8).getLsbD i ^^
      crcStepParallelBit 0#16 (c.extractLsb' 8 8 ^^^ d) i) := by
  interval_cases i <;> simp [crcStepParallelBit]

/-- Settles O21: both forms are the low byte moved up and what the other two bytes bring, which is a table. -/
theorem crcStepParallelForm : Obligations.CrcStepParallelForm := by
  unfold Obligations.CrcStepParallelForm
  intro c d i hi
  rw [crcStep_eq, BitVec.getLsbD_xor, crcStepParallelBit_eq c d hi, crcStep_zero_getLsbD _ ⟨i, hi⟩]

/-- Settles O25: without reflection the catalogue's bits are those of each byte from bit 7 down, so its register takes
the bit-serial form of each byte step. -/
theorem crcIsTheCatalogued : Obligations.CrcIsTheCatalogued := by
  unfold Obligations.CrcIsTheCatalogued
  refine ⟨fun s => ?_, by decide +kernel⟩
  have hserial : crcStepSerial = crcStep := funext fun c => funext (crcStepIsBitSerialMsbFirst c)
  calc catalogueCrc 0x8005 0xFFFF false false 0x0000 s
      = (s.flatMap bitsMsbFirst).foldl crcBit Config.crcSeed ^^^ 0#16 := rfl
    _ = s.foldl crcStepSerial Config.crcSeed := by rw [BitVec.xor_zero, List.foldl_flatMap]; rfl
    _ = compute s := by rw [hserial, compute]

/-! ### The closed form over GF(2) -/

open Polynomial

/-- The polynomial over GF(2) whose coefficients are the bits of `w`, bit `i` that of `X ^ i`. -/
noncomputable def bitsPoly {n : Nat} (w : BitVec n) : (ZMod 2)[X] :=
  ∑ i ∈ Finset.range n, if w.getLsbD i then (X : (ZMod 2)[X]) ^ i else 0

/-- The polynomial `P` of the CRC (R75). -/
noncomputable def crcPolynomial : (ZMod 2)[X] := X ^ 16 + X ^ 15 + X ^ 2 + 1

theorem monic_crcPolynomial : crcPolynomial.Monic := by
  unfold crcPolynomial
  monicity!

theorem degree_crcPolynomial : crcPolynomial.degree = 16 := by
  unfold crcPolynomial
  compute_degree!

@[simp] theorem coeff_bitsPoly {n : Nat} (w : BitVec n) (k : Nat) :
    (bitsPoly w).coeff k = if w.getLsbD k then 1 else 0 := by
  have hterm (i : Nat) : (if w.getLsbD i then (X : (ZMod 2)[X]) ^ i else 0).coeff k =
      if k = i then (if w.getLsbD k then 1 else 0) else 0 := by
    by_cases h : k = i
    · subst h
      cases w.getLsbD k <;> simp
    · cases w.getLsbD i <;> simp [coeff_X_pow, h]
  rw [bitsPoly, finsetSum_coeff, Finset.sum_congr rfl fun i _ => hterm i, Finset.sum_ite_eq]
  by_cases h : k < n
  · rw [if_pos (Finset.mem_range.mpr h)]
  · rw [BitVec.getLsbD_of_ge _ _ (Nat.le_of_not_lt h)]
    simp

theorem degree_bitsPoly_lt {n : Nat} (w : BitVec n) : (bitsPoly w).degree < n := by
  rw [degree_lt_iff_coeff_zero]
  intro k hk
  rw [coeff_bitsPoly, BitVec.getLsbD_of_ge _ _ hk]
  rfl

/-- Over GF(2), XOR is addition. -/
theorem bitsPoly_xor {n : Nat} (v w : BitVec n) : bitsPoly (v ^^^ w) = bitsPoly v + bitsPoly w := by
  ext k
  rw [coeff_add, coeff_bitsPoly, coeff_bitsPoly, coeff_bitsPoly, BitVec.getLsbD_xor]
  cases v.getLsbD k <;> cases w.getLsbD k <;> decide

theorem bitsPoly_zero {n : Nat} : bitsPoly 0#n = 0 := by
  ext k
  simp

theorem bitsPoly_crcPoly : bitsPoly Config.crcPoly = X ^ 15 + X ^ 2 + 1 := by
  simp [bitsPoly, Finset.sum_range_succ, Config.crcPoly, add_comm, add_assoc]

theorem bitsPoly_crcSeed : bitsPoly Config.crcSeed = ∑ i ∈ Finset.range 16, X ^ i := by
  refine Finset.sum_congr rfl fun i hi => if_pos ?_
  revert i
  decide

/-- A shift by one multiplies by `X`, but for the bit that leaves the register. -/
theorem X_mul_bitsPoly (t : CrcWord) :
    X * bitsPoly t = bitsPoly (t <<< 1) + if t.getLsbD 15 then X ^ 16 else 0 := by
  have htop : (if t.getLsbD 15 then (X : (ZMod 2)[X]) ^ 16 else 0) = C (if t.getLsbD 15 then 1 else 0) * X ^ 16 := by
    cases t.getLsbD 15 <;> simp
  ext k
  rw [htop, coeff_add, coeff_C_mul_X_pow, coeff_bitsPoly, BitVec.getLsbD_shiftLeft]
  cases k with
  | zero => simp
  | succ k =>
    rw [coeff_X_mul, coeff_bitsPoly]
    obtain h | rfl | h := lt_trichotomy k 15
    · have : k + 1 < 16 := by omega
      simp [this, h.ne]
    · simp
    · have : ¬ k + 1 < 16 := by omega
      simp [this, h.ne', BitVec.getLsbD_of_ge t k (by omega)]

/-- A byte at the top of the register is multiplied by `X ^ 8`. -/
theorem bitsPoly_setWidth_shiftLeft (d : Byte) : bitsPoly ((d.setWidth 16 : CrcWord) <<< 8) = X ^ 8 * bitsPoly d := by
  ext k
  rw [coeff_X_pow_mul', coeff_bitsPoly, coeff_bitsPoly, BitVec.getLsbD_shiftLeft, BitVec.getLsbD_setWidth]
  by_cases h : k < 16
  · have h8 : k - 8 < 16 := by omega
    by_cases hk : 8 ≤ k
    · have : ¬ k < 8 := by omega
      simp [h, h8, hk, this]
    · have : k < 8 := by omega
      simp [hk, this]
  · rw [BitVec.getLsbD_of_ge d (k - 8) (by omega)]
    simp

/-! #### Modulo `P` -/

/-- The class of a polynomial modulo `P`. -/
noncomputable abbrev modP : (ZMod 2)[X] →+* AdjoinRoot crcPolynomial := AdjoinRoot.mk crcPolynomial

/-- One turn of the loop is multiplication by `X` modulo `P`. -/
theorem modP_crcShift (t : CrcWord) : modP (bitsPoly (crcShift t)) = modP (X * bitsPoly t) := by
  rw [X_mul_bitsPoly, crcShift_eq, bitsPoly_xor]
  cases t.getLsbD 15 with
  | false => simp [bitsPoly_zero]
  | true =>
    refine AdjoinRoot.mk_eq_mk.mpr ⟨1, ?_⟩
    rw [if_pos rfl, if_pos rfl, add_sub_add_left_eq_sub, CharTwo.sub_eq_add, bitsPoly_crcPoly, crcPolynomial]
    ring

theorem modP_crcShifts (k : Nat) (t : CrcWord) : modP (bitsPoly (crcShifts k t)) = modP (X ^ k * bitsPoly t) := by
  induction k generalizing t with
  | zero => rw [crcShifts, pow_zero, one_mul]
  | succ k ih => rw [crcShifts, ih, map_mul, modP_crcShift, ← map_mul, pow_succ, mul_assoc]

/-- A byte step brings its byte in at `X ^ 16`. -/
theorem modP_crcStep (c : CrcWord) (d : Byte) :
    modP (bitsPoly (crcStep c d)) = modP (X ^ 8 * bitsPoly c + X ^ 16 * bitsPoly d) := by
  rw [crcStep, modP_crcShifts, bitsPoly_xor, bitsPoly_setWidth_shiftLeft]
  refine congrArg modP ?_
  ring

/-- The message polynomial: bit 7 of the first byte is the highest coefficient. -/
noncomputable def messagePoly : List Byte → (ZMod 2)[X]
  | [] => 0
  | d :: ds => bitsPoly d * X ^ (8 * ds.length) + messagePoly ds

/-- The closed form modulo `P`, from any register. -/
theorem modP_foldl_crcStep (s : List Byte) (c : CrcWord) :
    modP (bitsPoly (s.foldl crcStep c)) = modP (bitsPoly c * X ^ (8 * s.length) + messagePoly s * X ^ 16) := by
  induction s generalizing c with
  | nil => simp [messagePoly]
  | cons d ds ih =>
    rw [List.foldl_cons, ih, map_add, map_mul, modP_crcStep, ← map_mul, ← map_add, messagePoly, List.length_cons]
    refine congrArg modP ?_
    ring

theorem messagePoly_eq_sum (s : List Byte) :
    messagePoly s = ∑ j ∈ Finset.range s.length, ∑ b ∈ Finset.range 8,
      if (s.getD j 0).getLsbD b then X ^ (8 * (s.length - 1 - j) + b) else 0 := by
  induction s with
  | nil => rfl
  | cons d ds ih =>
    rw [messagePoly, ih, List.length_cons, Finset.sum_range_succ', add_comm]
    refine congrArg₂ (· + ·) ?_ ?_
    · refine Finset.sum_congr rfl fun j _ => ?_
      rw [List.getD_cons_succ, Nat.add_sub_cancel, Nat.sub_sub, Nat.add_comm 1 j]
    · rw [bitsPoly, Finset.sum_mul]
      refine Finset.sum_congr rfl fun b _ => ?_
      rw [ite_mul, zero_mul, ← pow_add, List.getD_cons_zero, Nat.add_sub_cancel, Nat.sub_zero, Nat.add_comm]

/-- Settles O24: folding the bytes is the closed form modulo `P`, and the register's polynomial has a lower degree. -/
theorem crcClosedForm : Obligations.CrcClosedForm := by
  unfold Obligations.CrcClosedForm
  intro s
  rw [← bitsPoly_crcSeed, ← messagePoly_eq_sum]
  have hdegree : (bitsPoly (compute s)).degree < crcPolynomial.degree :=
    (degree_bitsPoly_lt _).trans_eq degree_crcPolynomial.symm
  have hmod := AdjoinRoot.mk_eq_mk.mp (modP_foldl_crcStep s Config.crcSeed)
  calc bitsPoly (compute s) = bitsPoly (compute s) %ₘ crcPolynomial :=
        ((modByMonic_eq_self_iff monic_crcPolynomial).mpr hdegree).symm
    _ = _ := modByMonic_eq_of_dvd_sub monic_crcPolynomial hmod

end Sys2Proof.Machine

/-! ## Obligations 26 and 28: the CRC register along the steps (10_state.md R13; 40_crc.md R72) -/

namespace Sys2Proof.Machine

/-! ### CRC commands at the port of a ready unit -/

/-- The state once CRC commands have run: the register, the commands left with the host, and the responses given. -/
def State.crcRan (s : State) (v : CrcWord) (left : List Command) (given : List Response) : State :=
  { s with crc := v, port := left, responses := s.responses ++ given }

theorem State.crcRan_crcRan (s : State) (v v' : CrcWord) (left left' : List Command) (given given' : List Response) :
    (s.crcRan v left given).crcRan v' left' given' = s.crcRan v' left' (given ++ given') := by
  simp only [State.crcRan, List.append_assoc]

theorem State.Ready.crcRan {s : State} (h : s.Ready) (v : CrcWord) (left : List Command) (given : List Response) :
    (s.crcRan v left given).Ready := h

section Steps

variable {s : State} (h : s.Ready) {cs : List Command}
include h

/-- A ready unit that takes a command leaves the others with the host; its empty reset schedule stays empty. -/
theorem State.Ready.taken_eq {c : Command} (hp : s.port = c :: cs) : s.taken = { s with port := cs } := by
  rw [State.taken, hp, h.2, List.tail_cons, List.tail_nil]

theorem step_crcInit (hp : s.port = encode .crcInit :: cs) :
    Sys2Proof.core.step s = .next (s.crcRan Config.crcSeed cs [⟨.ok, []⟩]) := by
  refine (step_encode rfl (h.takes hp)).trans ((exec_crcInit h.taken.1).trans ?_)
  rw [h.taken_eq hp]
  rfl

theorem step_crcUpdate {d : Byte} (hp : s.port = encode (.crcUpdate d) :: cs) :
    Sys2Proof.core.step s = .next (s.crcRan (crcStep s.crc d) cs [⟨.ok, []⟩]) := by
  refine (step_encode rfl (h.takes hp)).trans ((exec_crcUpdate h.taken.1 d).trans ?_)
  rw [h.taken_eq hp]
  rfl

theorem step_crcRead (hp : s.port = encode .crcRead :: cs) :
    Sys2Proof.core.step s = .next (s.crcRan s.crc cs [⟨.ok, crcBytes s.crc⟩]) := by
  refine (step_encode rfl (h.takes hp)).trans ((exec_crcRead h.taken.1).trans ?_)
  rw [h.taken_eq hp]
  rfl

/-- The `CRC_UPDATE` commands of a byte sequence take one step each and fold the bytes into the register. -/
theorem run_crcUpdates {bytes : List Byte} (hp : s.port = (bytes.map .crcUpdate).map encode ++ cs) :
    Sys2Proof.core.run bytes.length s =
      .next (s.crcRan (bytes.foldl crcStep s.crc) cs (List.replicate bytes.length ⟨.ok, []⟩)) := by
  induction bytes generalizing s with
  | nil =>
    obtain rfl : s.port = cs := hp
    rw [State.crcRan, List.length_nil, List.replicate_zero, List.append_nil]
    rfl
  | cons d ds ih =>
    rw [List.map_cons, List.map_cons, List.cons_append] at hp
    rw [List.length_cons, run_succ (step_crcUpdate h hp), ih (h.crcRan _ _ _) rfl, State.crcRan_crcRan]
    rfl

end Steps

/-- Settles O26: `CRC_INIT` takes the first step, then each update one, and `CRC_READ` the last. -/
theorem crcComputeCommandsReturnCompute : Obligations.CrcComputeCommandsReturnCompute := by
  unfold Obligations.CrcComputeCommandsReturnCompute
  intro s bytes rest hidle hline hp
  have h : s.Ready := ⟨hidle, hline⟩
  rw [crcCompute, List.cons_append, List.map_cons, List.map_append, List.cons_append, List.append_assoc] at hp
  have hupdates := run_crcUpdates (h.crcRan Config.crcSeed _ [⟨.ok, []⟩]) (cs := encode .crcRead :: rest)
    (bytes := bytes) rfl
  rw [State.crcRan_crcRan] at hupdates
  have hread := step_crcRead (h.crcRan (compute bytes) (encode .crcRead :: rest)
    (List.replicate (bytes.length + 1) ⟨.ok, []⟩)) rfl
  rw [State.crcRan_crcRan] at hread
  refine (run_succ (step_crcInit h hp) _).trans ((run_add hupdates 1).trans ((run_succ hread 0).trans ?_))
  rw [State.crcRan, ← List.append_assoc]
  rfl

/-! ### Which steps write the register -/

/-- A reset inside a step sets the register to the seed, whatever the step had begun. -/
theorem State.cutStep_crc (s : State) : s.cutStep.crc = Config.crcSeed := by
  obtain ⟨wa, n, old, new, -, he⟩ | ⟨c, cs, e, -, -, he, -⟩ | ⟨-, -, he⟩ := cutStep_cases s <;> rw [he] <;> rfl

/-- The register after one command, by what the command decodes to. -/
theorem crcAfter_singleton (crc : CrcWord) (c : Command) :
    crcAfter crc [c] = match decode c with
      | .ok .crcInit => Config.crcSeed
      | .ok (.crcUpdate d) => crcStep crc d
      | _ => crc := by
  cases hd : decode c with
  | error e => rw [crcAfter_cons_error hd, crcAfter]
  | ok i =>
    rw [crcAfter_cons_ok hd, crcAfter]
    cases i <;> rfl

/-- Settles O28: a reset sets the seed, the owed write and waiting leave the register, and the command taken writes it
as `crcAfter` says. -/
theorem onlyInitUpdateAndResetWriteCrc : Obligations.OnlyInitUpdateAndResetWriteCrc := by
  unfold Obligations.OnlyInitUpdateAndResetWriteCrc
  intro s t hst
  obtain ⟨hr, he⟩ | ⟨hr, he⟩ | ⟨hr, wa, n, old, new, ha, he⟩ | ⟨c, ⟨ha, hr, hp⟩, he⟩ | ⟨hr, ha, hp, he⟩ := step_cases s
  · cases hst.symm.trans he
    rw [hr]
    rfl
  · cases hst.symm.trans he
    rw [hr, State.cutStep_crc]
    rfl
  · cases hst.symm.trans he
    rw [if_pos hr, ha]
    exact (rmwWriteStep_keeps _ _ _ _).2.1
  · obtain ⟨u, hu, hcrc, -⟩ := runCommand_crcAfter (s := s.taken) ha c
    cases hst.symm.trans (he.trans hu)
    obtain ⟨cs, hcs⟩ := List.head?_eq_some_iff.mp hp
    rw [if_pos hr, ha, hcs, hcrc, crcAfter_singleton]
    rfl
  · cases hst.symm.trans he
    rw [if_pos hr, ha, hp]
    rfl

end Sys2Proof.Machine

/-! ## Obligations 1 to 7: reset, waiting and flow control (10_state.md R21; 70_reset_and_hazards.md R109, R110) -/

namespace Sys2Proof.Machine

/-- Settles O1: both fields by evaluation. -/
theorem resetLeavesSeedAndIdle : Obligations.ResetLeavesSeedAndIdle := by
  unfold Obligations.ResetLeavesSeedAndIdle
  exact ⟨rfl, rfl⟩

/-! ### What a reset inside a step leaves, by the work it meets -/

section Cut

variable {s : State}

theorem cutStep_owedWrite {wa : Byte} {n : Nat} {old new : List Byte} (h : s.acc = .rmwWrite wa n old new) :
    s.cutStep = (s.record (.wrCut wa new)).applyReset := by
  rw [State.cutStep, work_busy h]

theorem cutStep_ok {c : Command} {i : Instr} (h : s.acc = .idle) (hp : s.port.head? = some c) (hd : decode c = .ok i) :
    s.cutStep = (s.takeCommand.recordCut (cutTransaction i)).applyReset := by
  simp only [State.cutStep, work_offered h hp, hd]

theorem cutStep_error {c : Command} {e : DecodeError} (h : s.acc = .idle) (hp : s.port.head? = some c)
    (hd : decode c = .error e) : s.cutStep = s.takeCommand.applyReset := by
  simp only [State.cutStep, work_offered h hp, hd]

theorem cutStep_waits (h : s.acc = .idle) (hp : s.port = []) : s.cutStep = s.applyReset := by
  rw [State.cutStep, work_none h hp]

end Cut

/-- Settles O2: the reset takes the step's place, or falls inside it and meets an owed write, a command or nothing. -/
theorem resetAbandonsTheCommandInProgress : Obligations.ResetAbandonsTheCommandInProgress := by
  unfold Obligations.ResetAbandonsTheCommandInProgress
  intro s
  refine ⟨step_before, fun hr => ⟨fun wa n old new ha => ?_, fun c ha hp => ?_, fun ha hp => ?_⟩⟩
  · rw [step_during hr, cutStep_owedWrite (s := s.passReset) ha]
    rfl
  · rw [step_during hr]
    cases hd : decode c with
    | error e =>
      rw [cutStep_error (s := s.passReset) ha hp hd, List.append_nil]
      rfl
    | ok i =>
      rw [cutStep_ok (s := s.passReset) ha hp hd]
      cases i with
      | crcInit | crcUpdate | crcRead =>
        rw [List.append_nil]
        rfl
      | regRead | regWrite | regRmw => rfl
  · rw [step_during hr, cutStep_waits (s := s.passReset) ha hp, State.applyReset, ha]
    rfl

/-- Settles O3: the first step reads, and the reset before the second drops the write owed. -/
theorem resetBetweenReadAndWriteLosesTheWrite : Obligations.ResetBetweenReadAndWriteLosesTheWrite := by
  unfold Obligations.ResetBetweenReadAndWriteLosesTheWrite
  intro s n ra wa mask value rest b r hi hidle hp hline hb
  have ht : s.Takes (encode (.regRmw n ra wa mask value)) :=
    ⟨hidle, by rw [State.resetNow, hline], by rw [hp]; rfl⟩
  have hread : Sys2Proof.core.step s = .next ((s.taken.dropAnswer.record (.rd ra n (.ok (b.toList.take n)))).setAcc
      (.rmwWrite wa n (b.toList.take n) (merge (b.toList.take n) mask value))) :=
    (step_encode hi ht).trans (exec_regRmw_ok (s := s.taken) hidle ra wa (of_decide_eq_true hi) hb)
  refine (run_succ hread 1).trans ((run_succ (step_before ?_) 0).trans ?_)
  · simp [State.resetNow, hline]
  · simp [Host.Core.run, State.applyReset, State.passReset, State.setAcc, State.record, Config.crcSeed, hline, hp]

/-- Settles O4: an idle unit to which nothing is offered only uses its entry of the reset schedule. -/
theorem idleUnitWaitsForACommand : Obligations.IdleUnitWaitsForACommand := by
  unfold Obligations.IdleUnitWaitsForACommand
  exact fun s => step_waits

/-- Settles O5: a busy unit accepts no instruction, and its own step is the owed write. -/
theorem busyUnitAcceptsNoCommand : Obligations.BusyUnitAcceptsNoCommand := by
  unfold Obligations.BusyUnitAcceptsNoCommand
  refine fun s hbusy => ⟨exec_busy hbusy, fun t hr hst => ?_⟩
  cases ha : s.acc with
  | idle => exact absurd ha hbusy
  | rmwWrite wa n old new =>
    cases hst.symm.trans (step_owedWrite ha hr)
    obtain ⟨hidle, -, hport, -⟩ := rmwWriteStep_keeps s.passReset wa old new
    exact ⟨hport, hidle⟩

/-- Settles O6: the command offered is taken, decoded and run. -/
theorem stepRunsTheDecodedInstruction : Obligations.StepRunsTheDecodedInstruction := by
  unfold Obligations.StepRunsTheDecodedInstruction
  exact fun s c i => step_of_decode

/-- Settles O7: every step issues what it issues in a next state, and `exec` on a busy unit changes nothing. -/
theorem stepAlwaysAnswersNext : Obligations.StepAlwaysAnswersNext := by
  unfold Obligations.StepAlwaysAnswersNext
  refine ⟨fun s => (step_issuesAtMostOne s).imp fun t ht => ht.1, fun i s => ?_⟩
  by_cases h : s.acc = .idle
  · exact (exec_issuesAtMostOne h i).imp fun t ht => ht.1
  · exact ⟨s, exec_busy h i⟩

end Sys2Proof.Machine

/-! ## Obligation 45: one fitting response a command (60_exceptions.md R96; 30_encoding.md R61) -/

namespace Sys2Proof.Machine

/-! ### The response a command ends with, or owes -/

/-- From `s` to `t` a command whose responses are those of `fits` has ended with one of them, or it owes a write and
will respond with one of them whatever that write's answer. -/
def State.Answers (s t : State) (fits : Response → Prop) : Prop :=
  (t.acc = .idle ∧ ∃ r, t.responses = s.responses ++ [r] ∧ fits r) ∨
    ∃ wa n old new, t.acc = .rmwWrite wa n old new ∧ t.responses = s.responses ∧
      ∀ a : WriteAnswer, fits ⟨a.status, old ++ new⟩

theorem State.answers_respond {s u : State} {fits : Response → Prop} {st : Status} {data : List Byte}
    (hidle : u.acc = .idle) (hr : u.responses = s.responses) (hfits : fits ⟨st, data⟩) :
    s.Answers (u.respond st data) fits :=
  .inl ⟨hidle, _, congrArg (· ++ _) hr, hfits⟩

theorem State.answers_transaction_respond {s : State} {fits : Response → Prop} {st : Status} {data : List Byte}
    (hidle : s.acc = .idle) (e : BusEvent) (hfits : fits ⟨st, data⟩) :
    s.Answers ((s.dropAnswer.record e).respond st data) fits :=
  State.answers_respond (s.dropAnswer_acc.trans hidle) s.dropAnswer_responses hfits

/-- An idle unit to which a well-formed instruction is offered answers with a response that fits its command. -/
theorem exec_answers {s : State} {c : Command} {i : Instr} (h : s.acc = .idle) (hd : decode c = .ok i) :
    ∃ t, exec i s = .next t ∧ s.Answers t (ResponseFits c) := by
  rcases exec_cases h i with ⟨hi, -⟩ | ⟨rfl, he⟩ | ⟨d8, rfl, he⟩ | ⟨rfl, he⟩ | ⟨n, ra, rfl, -, hread⟩ |
    ⟨n, wa, data, rfl, -, -, hwrite⟩ | ⟨n, ra, wa, mask, value, rfl, -, hmask, hvalue, hrmw⟩
  · exact absurd (wellFormed_of_decode hd) hi
  · exact ⟨_, he, State.answers_respond h rfl (by simp [ResponseFits, hd])⟩
  · exact ⟨_, he, State.answers_respond h rfl (by simp [ResponseFits, hd])⟩
  · exact ⟨_, he, State.answers_respond h rfl (by simp [ResponseFits, hd, crcBytes])⟩
  · obtain ⟨bytes, hlen, he⟩ | ⟨k, he⟩ := hread
    · exact ⟨_, he, State.answers_transaction_respond h _ (by simp [ResponseFits, hd, hlen])⟩
    · exact ⟨_, he, State.answers_transaction_respond h _ (by simp [ResponseFits, hd])⟩
  · obtain he | ⟨k, he⟩ := hwrite
    · exact ⟨_, he, State.answers_transaction_respond h _ (by simp [ResponseFits, hd])⟩
    · exact ⟨_, he, State.answers_transaction_respond h _ (by simp [ResponseFits, hd])⟩
  · obtain ⟨old, hold, he⟩ | ⟨k, he⟩ := hrmw
    · have hnew : (merge old mask value).length = n :=
        (length_merge (hmask.trans hold.symm) (hvalue.trans hold.symm)).trans hold
      refine ⟨_, he, .inr ⟨wa, n, old, _, rfl, by simp, fun a => ?_⟩⟩
      cases a <;> simp [ResponseFits, hd, WriteAnswer.status, hold, hnew, Nat.two_mul]
    · exact ⟨_, he, State.answers_transaction_respond h _ (by simp [ResponseFits, hd])⟩

theorem runCommand_answers {s : State} (h : s.acc = .idle) (c : Command) :
    ∃ t, s.runCommand c = .next t ∧ s.Answers t (ResponseFits c) := by
  cases hd : decode c with
  | ok i => exact runCommand_ok hd ▸ exec_answers h hd
  | error e => exact ⟨_, runCommand_error hd, State.answers_respond h rfl (by simp [ResponseFits, hd])⟩

theorem rmwWriteStep_responses (s : State) (wa : Byte) (old new : List Byte) :
    (s.rmwWriteStep wa old new).responses =
      s.responses ++ [⟨(writeAnswer s.nextAnswer).status, old ++ new⟩] := by
  simp [State.rmwWriteStep_eq]

/-- One command from start to end, as in `run_command`, with its response. -/
theorem run_command_responds {s : State} (h : s.Ready) {c : Command} {cs : List Command} (hp : s.port = c :: cs) :
    ∃ k ≤ 2, ∃ (t : State) (r : Response), Sys2Proof.core.run k s = .next t ∧ t.Ready ∧ t.port = cs ∧
      t.crc = crcAfter s.crc [c] ∧ t.responses = s.responses ++ [r] ∧ ResponseFits c r := by
  obtain ⟨t, ht, hcrc, hport, hline⟩ := runCommand_crcAfter (s := s.taken) h.1 c
  obtain ⟨t', ht', hanswers⟩ := runCommand_answers (s := s.taken) h.1 c
  obtain rfl : t = t' := Host.Outcome.next.inj (ht.symm.trans ht')
  have hstep : Sys2Proof.core.step s = .next t := (step_takes (h.takes hp)).trans ht
  replace hport : t.port = cs := by rw [hport, State.taken_port, hp, List.tail_cons]
  replace hline : t.resetLine = [] := hline.trans h.taken.2
  obtain ⟨hidle, r, hr, hfits⟩ | ⟨wa, n, old, new, ha, hr, hfits⟩ := hanswers
  · exact ⟨1, by decide, t, r, run_succ hstep 0, ⟨hidle, hline⟩, hport, hcrc, hr, hfits⟩
  · obtain ⟨hidle, hcrc', hport', hline'⟩ := rmwWriteStep_keeps t.passReset wa old new
    have hwrite : Sys2Proof.core.step t = .next (t.passReset.rmwWriteStep wa old new) :=
      step_owedWrite ha (State.resetNow_of_nil hline)
    refine ⟨2, le_rfl, _, _, (run_succ hstep 1).trans (run_succ hwrite 0), ⟨hidle, ?_⟩, hport'.trans hport,
      hcrc'.trans hcrc, (rmwWriteStep_responses _ _ _ _).trans (congrArg (· ++ _) hr), hfits _⟩
    rw [hline', State.passReset_resetLine, hline, List.tail_nil]

/-- The commands at the port run in at most two steps each and get their responses in order. -/
theorem run_commands_respond {s : State} (h : s.Ready) {cs : List Command} (hp : s.port = cs) :
    ∃ k ≤ 2 * cs.length, ∃ (t : State) (rs : List Response), Sys2Proof.core.run k s = .next t ∧ t.Ready ∧ t.port = [] ∧
      t.crc = crcAfter s.crc cs ∧ t.responses = s.responses ++ rs ∧ List.Forall₂ ResponseFits cs rs := by
  induction cs generalizing s with
  | nil => exact ⟨0, le_rfl, s, [], rfl, h, hp, rfl, (List.append_nil _).symm, .nil⟩
  | cons c cs ih =>
    obtain ⟨k, hk, u, r, hrun, hready, hport, hcrc, hr, hfits⟩ := run_command_responds h hp
    obtain ⟨m, hm, t, rs, hrun', hready', hport', hcrc', hrs, hfits'⟩ := ih hready hport
    refine ⟨k + m, ?_, t, r :: rs, (run_add hrun m).trans hrun', hready', hport', ?_, ?_, .cons hfits hfits'⟩
    · rw [List.length_cons]
      omega
    · rw [hcrc', hcrc, ← crcAfter_append, List.singleton_append]
    · rw [hrs, hr, List.append_assoc, List.singleton_append]

/-- Settles O45: the commands run to their responses in at most two steps each, and the steps left are waiting. -/
theorem everyCommandGetsOneResponse : Obligations.EveryCommandGetsOneResponse := by
  unfold Obligations.EveryCommandGetsOneResponse
  intro s hidle hline
  obtain ⟨k, hk, t, rs, hrun, hready, hport, hcrc, hrs, hfits⟩ := run_commands_respond ⟨hidle, hline⟩ rfl
  obtain ⟨m, hm⟩ := Nat.exists_eq_add_of_le hk
  refine ⟨t, rs, ?_, hready.1, hport, hrs, hfits, hcrc⟩
  rw [hm, run_add hrun, run_waits hready hport]

end Sys2Proof.Machine

/-! ## Obligation 46: writes are never repeated (20_memory.md section 5) -/

namespace Sys2Proof.Machine

/-- How many writes to an address the phase still owes. -/
def Acc.writesOwed (a : Byte) : Acc → Nat
  | .idle => 0
  | .rmwWrite wa _ _ _ => if wa = a then 1 else 0

/-- How many writes to an address an instruction may make. -/
def writesOfInstr (a : Byte) : Instr → Nat
  | .crcInit => 0
  | .crcUpdate _ => 0
  | .crcRead => 0
  | .regRead _ _ => 0
  | .regWrite _ wa _ => if wa = a then 1 else 0
  | .regRmw _ _ wa _ _ => if wa = a then 1 else 0

/-- The writes to an address that are made or owed. -/
def State.writesBegun (s : State) (a : Byte) : Nat := writesTo a s.history + s.acc.writesOwed a

theorem writesTo_append (a : Byte) (es fs : List BusEvent) : writesTo a (es ++ fs) = writesTo a es + writesTo a fs := by
  induction es with
  | nil => rw [List.nil_append, writesTo, Nat.zero_add]
  | cons e es ih =>
    cases e <;> simp only [List.cons_append, writesTo, ih, Nat.add_assoc]

theorem writeCommands_cons_ok {c : Command} {i : Instr} (h : decode c = .ok i) (a : Byte) (cs : List Command) :
    writeCommands a (c :: cs) = writesOfInstr a i + writeCommands a cs := by
  cases i <;> simp [writeCommands, h, writesOfInstr]

theorem writeCommands_cons_error {c : Command} {e : DecodeError} (h : decode c = .error e) (a : Byte)
    (cs : List Command) : writeCommands a (c :: cs) = writeCommands a cs := by
  simp only [writeCommands, h]

theorem writeCommands_cons (a : Byte) (c : Command) (cs : List Command) :
    writeCommands a (c :: cs) = writeCommands a [c] + writeCommands a cs := by
  cases hd : decode c with
  | ok i => rw [writeCommands_cons_ok hd, writeCommands_cons_ok hd, writeCommands, Nat.add_zero]
  | error e => rw [writeCommands_cons_error hd, writeCommands_cons_error hd, writeCommands, Nat.zero_add]

/-- An instruction begins no write that it does not name: the one it makes, or the one it then owes. -/
theorem exec_writesBegun_le {s : State} (h : s.acc = .idle) (i : Instr) (a : Byte) :
    ∃ t, exec i s = .next t ∧ t.writesBegun a ≤ s.writesBegun a + writesOfInstr a i := by
  rcases exec_cases h i with ⟨hi, he⟩ | ⟨rfl, he⟩ | ⟨d8, rfl, he⟩ | ⟨rfl, he⟩ | ⟨n, ra, rfl, -, hread⟩ |
    ⟨n, wa, data, rfl, -, -, hwrite⟩ | ⟨n, ra, wa, mask, value, rfl, -, -, -, hrmw⟩
  · exact ⟨_, he, Nat.le_add_right _ _⟩
  · exact ⟨_, he, le_rfl⟩
  · exact ⟨_, he, le_rfl⟩
  · exact ⟨_, he, le_rfl⟩
  · obtain ⟨bytes, -, he⟩ | ⟨k, he⟩ := hread
    · exact ⟨_, he, by simp [State.writesBegun, writesTo_append, writesTo]⟩
    · exact ⟨_, he, by simp [State.writesBegun, writesTo_append, writesTo]⟩
  · obtain he | ⟨k, he⟩ := hwrite
    · exact ⟨_, he, by simp [State.writesBegun, writesTo_append, writesTo, writesOfInstr]; omega⟩
    · exact ⟨_, he, by simp [State.writesBegun, writesTo_append, writesTo, writesOfInstr]; omega⟩
  · obtain ⟨old, -, he⟩ | ⟨k, he⟩ := hrmw
    · exact ⟨_, he, by simp [State.writesBegun, writesTo_append, writesTo, writesOfInstr, Acc.writesOwed]⟩
    · exact ⟨_, he, by simp [State.writesBegun, writesTo_append, writesTo]⟩

/-- The command taken begins no more writes than it counts for. -/
theorem runCommand_writesBegun_le {s : State} (h : s.acc = .idle) (c : Command) (a : Byte) :
    ∃ t, s.runCommand c = .next t ∧ t.writesBegun a ≤ s.writesBegun a + writeCommands a [c] := by
  cases hd : decode c with
  | ok i =>
    rw [runCommand_ok hd, writeCommands_cons_ok hd]
    exact exec_writesBegun_le h i a
  | error e => exact ⟨_, runCommand_error hd, Nat.le_add_right _ _⟩

/-- The owed write is made, and then owed no more. -/
theorem rmwWriteStep_writesBegun (s : State) {wa : Byte} {n : Nat} {old new : List Byte}
    (h : s.acc = .rmwWrite wa n old new) (a : Byte) :
    (s.rmwWriteStep wa old new).writesBegun a = s.writesBegun a := by
  simp [State.rmwWriteStep_eq, State.writesBegun, writesTo_append, writesTo, Acc.writesOwed, h]

/-- A transaction that a reset cuts is a write only where the instruction names that address. -/
theorem writesTo_cutTransaction (i : Instr) (a : Byte) :
    writesTo a (cutTransaction i).toList ≤ writesOfInstr a i := by
  cases i <;> simp [cutTransaction, writesTo, writesOfInstr]

/-- The writes begun and those the commands still at the port may make: what the unit can ever write to an address. -/
def State.writesPossible (s : State) (a : Byte) : Nat := s.writesBegun a + writeCommands a s.port

theorem cutStep_writesPossible_le (s : State) (a : Byte) : s.cutStep.writesPossible a ≤ s.writesPossible a := by
  obtain ⟨wa, n, old, new, ha, he⟩ | ⟨c, cs, e, ha, hp, he, ⟨i, hd, rfl⟩ | ⟨err, hd, rfl⟩⟩ | ⟨ha, hp, he⟩ :=
    cutStep_cases s
  · rw [he]
    simp [State.writesPossible, State.writesBegun, writesTo_append, writesTo, Acc.writesOwed, ha]
  · have hcut := writesTo_cutTransaction i a
    rw [he]
    simp [State.writesPossible, State.writesBegun, writesTo_append, Acc.writesOwed, ha, hp, writeCommands_cons_ok hd]
    omega
  · rw [he]
    simp [State.writesPossible, State.writesBegun, Acc.writesOwed, ha, hp, writeCommands_cons_error hd]
  · rw [he]
    simp [State.writesPossible, State.writesBegun, Acc.writesOwed, ha]

/-- No step, with or without a reset, adds to what the unit can ever write to an address. -/
theorem step_writesPossible_le (s : State) (a : Byte) :
    ∃ t, step s = .next t ∧ t.writesPossible a ≤ s.writesPossible a := by
  obtain ⟨-, he⟩ | ⟨-, he⟩ | ⟨-, wa, n, old, new, ha, he⟩ | ⟨c, ⟨ha, -, hp⟩, he⟩ | ⟨-, -, -, he⟩ := step_cases s
  · exact ⟨_, he, Nat.add_le_add_right (Nat.add_le_add_left (Nat.zero_le _) _) _⟩
  · exact ⟨_, he, cutStep_writesPossible_le s.passReset a⟩
  · refine ⟨_, he, ?_⟩
    rw [State.writesPossible, rmwWriteStep_writesBegun s.passReset ha, (rmwWriteStep_keeps _ _ _ _).2.2.1]
    rfl
  · obtain ⟨t, ht, hle⟩ := runCommand_writesBegun_le (s := s.taken) ha c a
    obtain ⟨t', ht', -, hport⟩ := runCommand_issuesAtMostOne (s := s.taken) ha c
    obtain rfl : t = t' := Host.Outcome.next.inj (ht.symm.trans ht')
    obtain ⟨cs, hcs⟩ := List.head?_eq_some_iff.mp hp
    refine ⟨t, he.trans ht, ?_⟩
    calc t.writesBegun a + writeCommands a t.port
        ≤ s.writesBegun a + writeCommands a [c] + writeCommands a cs := by
          rw [hport, State.taken_port, hcs, List.tail_cons]
          exact Nat.add_le_add_right hle _
      _ = s.writesBegun a + writeCommands a s.port := by rw [hcs, writeCommands_cons a c cs, Nat.add_assoc]
  · exact ⟨_, he, le_rfl⟩

/-- Along a run the bound of its first state holds. -/
theorem run_writesPossible_le (k : Nat) (s : State) (a : Byte) :
    ∃ t : State, Sys2Proof.core.run k s = .next t ∧ t.writesPossible a ≤ s.writesPossible a := by
  induction k generalizing s with
  | zero => exact ⟨s, rfl, le_rfl⟩
  | succ k ih =>
    obtain ⟨u, hstep, hu⟩ := step_writesPossible_le s a
    obtain ⟨t, hrun, ht⟩ := ih u
    exact ⟨t, (run_succ hstep k).trans hrun, ht.trans hu⟩

/-- Settles O46: an idle unit owes no write, and what it can ever write does not grow. -/
theorem writesAreNeverRepeated : Obligations.WritesAreNeverRepeated := by
  unfold Obligations.WritesAreNeverRepeated
  intro s a k hidle
  obtain ⟨t, hrun, hle⟩ := run_writesPossible_le k s a
  refine ⟨t, hrun, ?_⟩
  rw [State.writesPossible, State.writesPossible, State.writesBegun, State.writesBegun, hidle] at hle
  simp only [Acc.writesOwed] at hle
  omega

end Sys2Proof.Machine

/-! ## Obligations 47 and 48: the invariant (10_state.md R19; 20_memory.md R26, R41; 60_exceptions.md R96) -/

namespace Sys2Proof.Machine

/-- The part of the invariant about what the unit has done: its transactions and responses have their shapes. -/
def State.RecordsWf (s : State) : Prop := (∀ e ∈ s.history, e.Wf) ∧ ∀ r ∈ s.responses, r.Wf

theorem State.inv_of_idle {s : State} (h : s.acc = .idle) (hrec : s.RecordsWf) : s.Inv := by
  refine ⟨?_, ?_, hrec⟩
  · rw [h]
    trivial
  · rw [State.OwesItsRead, h]
    trivial

theorem State.Inv.recordsWf {s : State} (h : s.Inv) : s.RecordsWf := ⟨h.2.2.1, h.2.2.2⟩

/-! ### The records under each update -/

section Records

variable {s : State}

theorem State.RecordsWf.record (h : s.RecordsWf) {e : BusEvent} (he : e.Wf) : (s.record e).RecordsWf := by
  refine ⟨fun f hf => ?_, h.2⟩
  obtain hf | hf := List.mem_append.mp hf
  · exact h.1 f hf
  · obtain rfl := List.mem_singleton.mp hf
    exact he

theorem State.RecordsWf.respond (h : s.RecordsWf) {st : Status} {data : List Byte} (hr : Response.Wf ⟨st, data⟩) :
    (s.respond st data).RecordsWf := by
  refine ⟨h.1, fun r hmem => ?_⟩
  obtain hmem | hmem := List.mem_append.mp hmem
  · exact h.2 r hmem
  · obtain rfl := List.mem_singleton.mp hmem
    exact hr

theorem State.RecordsWf.dropAnswer (h : s.RecordsWf) : s.dropAnswer.RecordsWf := by
  rwa [State.RecordsWf, s.dropAnswer_history, s.dropAnswer_responses]

theorem State.RecordsWf.transaction_respond (h : s.RecordsWf) {e : BusEvent} (he : e.Wf) {st : Status}
    {data : List Byte} (hr : Response.Wf ⟨st, data⟩) : ((s.dropAnswer.record e).respond st data).RecordsWf :=
  (h.dropAnswer.record he).respond hr

/-- An idle unit that makes a transaction and responds meets the invariant again. -/
theorem State.RecordsWf.inv_transaction_respond (h : s.RecordsWf) (hidle : s.acc = .idle) (e : BusEvent) (he : e.Wf)
    {st : Status} {data : List Byte} (hr : Response.Wf ⟨st, data⟩) :
    ((s.dropAnswer.record e).respond st data).Inv :=
  State.inv_of_idle (s.dropAnswer_acc.trans hidle) ((h.dropAnswer.record he).respond hr)

end Records

/-- An instruction offered to an idle unit. -/
theorem exec_keeps_inv {s : State} (hidle : s.acc = .idle) (h : s.RecordsWf) (i : Instr) :
    ∃ t, exec i s = .next t ∧ t.Inv := by
  rcases exec_cases hidle i with ⟨hi, he⟩ | ⟨rfl, he⟩ | ⟨d8, rfl, he⟩ | ⟨rfl, he⟩ | ⟨n, ra, rfl, hn, hread⟩ |
    ⟨n, wa, data, rfl, hn, hdata, hwrite⟩ | ⟨n, ra, wa, mask, value, rfl, hn, hmask, hvalue, hrmw⟩
  · exact ⟨_, he, State.inv_of_idle hidle (h.respond rfl)⟩
  · exact ⟨_, he, State.inv_of_idle hidle (State.RecordsWf.respond h (Nat.zero_le _))⟩
  · exact ⟨_, he, State.inv_of_idle hidle (State.RecordsWf.respond h (Nat.zero_le _))⟩
  · exact ⟨_, he, State.inv_of_idle hidle (h.respond (by decide : 2 ≤ 10))⟩
  · obtain ⟨bytes, hlen, he⟩ | ⟨k, he⟩ := hread
    · have hresponse : bytes.length ≤ 2 * Config.maxWidth := by
        have := hn.2
        omega
      exact ⟨_, he, h.inv_transaction_respond hidle (.rd ra n (.ok bytes)) ⟨hn, hlen⟩ hresponse⟩
    · exact ⟨_, he, h.inv_transaction_respond hidle (.rd ra n (.err k)) hn rfl⟩
  · have hwr : LegalWidth data.length := hdata.symm ▸ hn
    obtain he | ⟨k, he⟩ := hwrite
    · exact ⟨_, he, h.inv_transaction_respond hidle (.wr wa data .ok) hwr (Nat.zero_le _)⟩
    · exact ⟨_, he, h.inv_transaction_respond hidle (.wr wa data (.err k)) hwr ⟨Nat.zero_le _, rfl⟩⟩
  · obtain ⟨old, hold, he⟩ | ⟨k, he⟩ := hrmw
    · have hnew : (merge old mask value).length = n :=
        (length_merge (hmask.trans hold.symm) (hvalue.trans hold.symm)).trans hold
      exact ⟨_, he, ⟨hn, hold, hnew⟩, ⟨ra, List.getLast?_concat⟩, h.dropAnswer.record ⟨hn, hold⟩⟩
    · exact ⟨_, he, h.inv_transaction_respond hidle (.rd ra n (.err k)) hn rfl⟩

/-- A failed check is reported without data. -/
theorem wf_errorResponse (e : DecodeError) : Response.Wf ⟨errorStatus e, []⟩ := by
  cases e <;> rfl

theorem runCommand_keeps_inv {s : State} (hidle : s.acc = .idle) (h : s.RecordsWf) (c : Command) :
    ∃ t, s.runCommand c = .next t ∧ t.Inv := by
  cases hd : decode c with
  | ok i => exact runCommand_ok hd ▸ exec_keeps_inv hidle h i
  | error e => exact ⟨_, runCommand_error hd, State.inv_of_idle hidle (h.respond (wf_errorResponse e))⟩

/-- The owed write moves the bytes of its width, and its response carries twice as many. -/
theorem rmwWriteStep_keeps_inv {s : State} (h : s.Inv) {wa : Byte} {n : Nat} {old new : List Byte}
    (ha : s.acc = .rmwWrite wa n old new) : (s.rmwWriteStep wa old new).Inv := by
  obtain ⟨hn, hold, hnew⟩ : LegalWidth n ∧ old.length = n ∧ new.length = n := by
    have := h.1
    rwa [ha] at this
  have hevent : LegalWidth new.length := hnew.symm ▸ hn
  have hlen : (old ++ new).length = 2 * n := by
    rw [List.length_append, hold, hnew, Nat.two_mul]
  have hmax : (old ++ new).length ≤ 2 * Config.maxWidth := hlen ▸ Nat.mul_le_mul_left 2 hn.2
  have heven : (old ++ new).length % 2 = 0 := by omega
  refine State.inv_of_idle (rmwWriteStep_keeps s wa old new).1 ?_
  obtain he | ⟨k, he⟩ := rmwWriteStep_cases s wa old new
  · exact he ▸ h.recordsWf.transaction_respond (e := .wr wa new .ok) hevent hmax
  · exact he ▸ h.recordsWf.transaction_respond (e := .wr wa new (.err k)) hevent ⟨hmax, heven⟩

theorem wf_cutTransaction {i : Instr} (hi : i.WellFormed) {e : BusEvent} (h : cutTransaction i = some e) : e.Wf := by
  cases i with
  | crcInit | crcUpdate | crcRead => cases h
  | regRead n ra =>
    cases h
    exact of_decide_eq_true (p := LegalWidth n) hi
  | regWrite n wa data =>
    cases h
    obtain ⟨hn, rfl⟩ : LegalWidth n ∧ data.length = n := of_decide_eq_true hi
    exact hn
  | regRmw n ra wa mask value =>
    cases h
    exact (of_decide_eq_true (p := LegalWidth n ∧ _) hi).1

theorem State.RecordsWf.recordCut {s : State} (h : s.RecordsWf) {i : Instr} (hi : i.WellFormed) :
    (s.recordCut (cutTransaction i)).RecordsWf := by
  cases he : cutTransaction i with
  | none => exact h
  | some e => exact h.record (wf_cutTransaction hi he)

theorem cutStep_keeps_inv {s : State} (h : s.Inv) : s.cutStep.Inv := by
  obtain ⟨wa, n, old, new, ha, he⟩ | ⟨c, cs, e, -, -, he, ⟨i, hd, rfl⟩ | ⟨err, -, rfl⟩⟩ | ⟨-, -, he⟩ := cutStep_cases s
  · have hevent : (BusEvent.wrCut wa new).Wf := by
      obtain ⟨hn, -, rfl⟩ : LegalWidth n ∧ old.length = n ∧ new.length = n := by
        have := h.1
        rwa [ha] at this
      exact hn
    exact he ▸ State.inv_of_idle rfl (h.recordsWf.record hevent)
  · have hi := wellFormed_of_decode hd
    exact he ▸ State.inv_of_idle rfl (State.RecordsWf.recordCut (s := s.takeCommand) h.recordsWf hi)
  · exact he ▸ State.inv_of_idle rfl h.recordsWf
  · exact he ▸ State.inv_of_idle rfl h.recordsWf

/-- Settles O47: after reset the unit is idle and has done nothing. -/
theorem resetMeetsTheInvariant : Obligations.ResetMeetsTheInvariant := by
  unfold Obligations.ResetMeetsTheInvariant
  exact State.inv_of_idle rfl ⟨nofun, nofun⟩

/-- Settles O48: case by case over what a step can be; only the answered read of a `REG_RMW` leaves a write owed. -/
theorem everyStepKeepsTheInvariant : Obligations.EveryStepKeepsTheInvariant := by
  unfold Obligations.EveryStepKeepsTheInvariant
  intro s t h hst
  obtain ⟨-, he⟩ | ⟨-, he⟩ | ⟨-, wa, n, old, new, ha, he⟩ | ⟨c, ⟨ha, -, -⟩, he⟩ | ⟨-, -, -, he⟩ := step_cases s
  · cases hst.symm.trans he
    exact State.inv_of_idle rfl h.recordsWf
  · cases hst.symm.trans he
    exact cutStep_keeps_inv (s := s.passReset) h
  · cases hst.symm.trans he
    exact rmwWriteStep_keeps_inv (s := s.passReset) h ha
  · obtain ⟨u, hu, hinv⟩ := runCommand_keeps_inv (s := s.taken) ha h.recordsWf c
    cases hst.symm.trans (he.trans hu)
    exact hinv
  · cases hst.symm.trans he
    exact h

end Sys2Proof.Machine

/-! ## Obligation 43: no response and no transaction before it affects a step (60_exceptions.md R101) -/

namespace Sys2Proof.Machine

/-- The state with a longer past: these transactions and responses came first. -/
def State.after (s : State) (es : List BusEvent) (rs : List Response) : State :=
  { s with history := es ++ s.history, responses := rs ++ s.responses }

section After

variable (s : State) (es : List BusEvent) (rs : List Response)

theorem State.respond_after (st : Status) (data : List Byte) :
    (s.after es rs).respond st data = (s.respond st data).after es rs := by
  simp [State.after, State.respond]

theorem State.record_after (e : BusEvent) : (s.after es rs).record e = (s.record e).after es rs := by
  simp [State.after, State.record]

theorem State.recordCut_after (e : Option BusEvent) : (s.after es rs).recordCut e = (s.recordCut e).after es rs := by
  cases e with
  | none => rfl
  | some e => exact s.record_after es rs e

theorem State.dropAnswer_after : (s.after es rs).dropAnswer = s.dropAnswer.after es rs := by
  cases h : s.answers <;> simp [State.dropAnswer, State.after, h]

theorem State.transaction_after (e : BusEvent) :
    (s.after es rs).dropAnswer.record e = (s.dropAnswer.record e).after es rs := by
  rw [State.dropAnswer_after, State.record_after]

theorem rmwWriteStep_after (wa : Byte) (old new : List Byte) :
    (s.after es rs).rmwWriteStep wa old new = (s.rmwWriteStep wa old new).after es rs := by
  rw [State.rmwWriteStep_eq, State.rmwWriteStep_eq, State.transaction_after]
  exact State.respond_after ((s.dropAnswer.record _).setAcc .idle) es rs _ _

/-- Two results that are one response to states one of which is the other with a longer past. -/
theorem next_after_of_respond {o o' : StepResult} {u : State} {st : Status} {data : List Byte}
    (he : o = .next (u.respond st data)) (he' : o' = .next ((u.after es rs).respond st data)) :
    ∃ t, o = .next t ∧ o' = .next (t.after es rs) :=
  ⟨_, he, he'.trans (congrArg _ (u.respond_after es rs st data))⟩

theorem next_after_of_transaction {s : State} {o o' : StepResult} {e : BusEvent} {st : Status} {data : List Byte}
    (he : o = .next ((s.dropAnswer.record e).respond st data))
    (he' : o' = .next (((s.after es rs).dropAnswer.record e).respond st data)) :
    ∃ t, o = .next t ∧ o' = .next (t.after es rs) :=
  next_after_of_respond es rs he (State.transaction_after s es rs e ▸ he')

/-- What an instruction does is the same after a longer past: the device answers the same, and what is recorded and
responded comes at the end. -/
theorem exec_after (i : Instr) : ∃ t, exec i s = .next t ∧ exec i (s.after es rs) = .next (t.after es rs) := by
  by_cases h : s.acc = .idle
  · have h' : (s.after es rs).acc = .idle := h
    by_cases hi : i.WellFormed
    · cases i with
      | crcInit => exact next_after_of_respond es rs (exec_crcInit h) (exec_crcInit h')
      | crcUpdate d8 => exact next_after_of_respond es rs (exec_crcUpdate h d8) (exec_crcUpdate h' d8)
      | crcRead => exact next_after_of_respond es rs (exec_crcRead h) (exec_crcRead h')
      | regRead n ra =>
        have hf : LegalWidth n := of_decide_eq_true hi
        cases ha : s.nextAnswer with
        | ok b => exact next_after_of_transaction es rs (exec_regRead_ok h hf ra ha) (exec_regRead_ok h' hf ra ha)
        | err k => exact next_after_of_transaction es rs (exec_regRead_err h hf ra ha) (exec_regRead_err h' hf ra ha)
      | regWrite n wa data =>
        have hf : LegalWidth n ∧ data.length = n := of_decide_eq_true hi
        cases ha : s.nextAnswer with
        | ok b => exact next_after_of_transaction es rs (exec_regWrite_ok h wa hf ha) (exec_regWrite_ok h' wa hf ha)
        | err k => exact next_after_of_transaction es rs (exec_regWrite_err h wa hf ha) (exec_regWrite_err h' wa hf ha)
      | regRmw n ra wa mask value =>
        have hf : LegalWidth n ∧ mask.length = n ∧ value.length = n := of_decide_eq_true hi
        cases ha : s.nextAnswer with
        | ok b =>
          refine ⟨_, exec_regRmw_ok h ra wa hf ha, (exec_regRmw_ok h' ra wa hf ha).trans ?_⟩
          rw [State.transaction_after]
          rfl
        | err k =>
          exact next_after_of_transaction es rs (exec_regRmw_err h ra wa hf ha) (exec_regRmw_err h' ra wa hf ha)
    · exact next_after_of_respond es rs (exec_malformed h hi) (exec_malformed h' hi)
  · exact ⟨s, exec_busy h i, exec_busy (s := s.after es rs) h i⟩

theorem runCommand_after (c : Command) :
    ∃ t, s.runCommand c = .next t ∧ (s.after es rs).runCommand c = .next (t.after es rs) := by
  cases hd : decode c with
  | ok i =>
    rw [runCommand_ok hd, runCommand_ok hd]
    exact exec_after s es rs i
  | error e => exact next_after_of_respond es rs (runCommand_error hd) (runCommand_error hd)

theorem cutStep_after : (s.after es rs).cutStep = s.cutStep.after es rs := by
  cases ha : s.acc with
  | rmwWrite wa n old new =>
    rw [cutStep_owedWrite ha, cutStep_owedWrite (s := s.after es rs) ha, State.record_after]
    rfl
  | idle =>
    cases hp : s.port.head? with
    | none =>
      have hp := List.head?_eq_none_iff.mp hp
      rw [cutStep_waits ha hp, cutStep_waits (s := s.after es rs) ha hp]
      rfl
    | some c =>
      cases hd : decode c with
      | ok i =>
        rw [cutStep_ok ha hp hd, cutStep_ok (s := s.after es rs) ha hp hd]
        exact congrArg State.applyReset (State.recordCut_after s.takeCommand es rs _)
      | error e =>
        rw [cutStep_error ha hp hd, cutStep_error (s := s.after es rs) ha hp hd]
        rfl

/-- A step does the same after a longer past. -/
theorem step_after : ∃ t, step s = .next t ∧ step (s.after es rs) = .next (t.after es rs) := by
  cases hr : s.resetNow with
  | before => exact ⟨_, step_before hr, step_before (s := s.after es rs) hr⟩
  | during =>
    have hcut := cutStep_after s.passReset es rs
    exact ⟨_, step_during hr, (step_during (s := s.after es rs) hr).trans (congrArg _ hcut)⟩
  | quiet =>
    cases ha : s.acc with
    | rmwWrite wa n old new =>
      have hwrite := rmwWriteStep_after s.passReset es rs wa old new
      exact ⟨_, step_owedWrite ha hr, (step_owedWrite (s := s.after es rs) ha hr).trans (congrArg _ hwrite)⟩
    | idle =>
      cases hp : s.port with
      | nil => exact ⟨_, step_waits ha hp hr, step_waits (s := s.after es rs) ha hp hr⟩
      | cons c cs =>
        have ht : s.Takes c := ⟨ha, hr, by rw [hp]; rfl⟩
        obtain ⟨t, hrun, hafter⟩ := runCommand_after s.taken es rs c
        exact ⟨t, (step_takes ht).trans hrun, (step_takes (s := s.after es rs) ht).trans hafter⟩

end After

theorem State.cutStep_acc (s : State) : s.cutStep.acc = .idle := by
  obtain ⟨wa, n, old, new, -, he⟩ | ⟨c, cs, e, -, -, he, -⟩ | ⟨-, -, he⟩ := cutStep_cases s <;> rw [he] <;> rfl

/-- A step that gives a response ends the command. -/
theorem acc_idle_of_response {s t : State} (hst : step s = .next t) (hr : t.responses ≠ s.responses) :
    t.acc = .idle := by
  obtain ⟨-, he⟩ | ⟨-, he⟩ | ⟨-, wa, n, old, new, -, he⟩ | ⟨c, ⟨ha, -, -⟩, he⟩ | ⟨-, ha, -, he⟩ := step_cases s
  · cases hst.symm.trans he
    rfl
  · cases hst.symm.trans he
    exact State.cutStep_acc _
  · cases hst.symm.trans he
    exact (rmwWriteStep_keeps _ _ _ _).1
  · obtain ⟨u, hu, hanswers⟩ := runCommand_answers (s := s.taken) ha c
    cases hst.symm.trans (he.trans hu)
    obtain ⟨hidle, -⟩ | ⟨wa, n, old, new, -, hsame, -⟩ := hanswers
    · exact hidle
    · exact absurd hsame hr
  · cases hst.symm.trans he
    exact ha

/-- Settles O43: a state is the one without its past, followed by that past. -/
theorem nothingButCrcAndAccPersists : Obligations.NothingButCrcAndAccPersists := by
  unfold Obligations.NothingButCrcAndAccPersists
  refine ⟨fun s t => acc_idle_of_response, fun s t hst => ?_⟩
  have hpast : ({ s with history := [], responses := [] } : State).after s.history s.responses = s := by
    simp only [State.after, List.append_nil]
  obtain ⟨u, hu, hafter⟩ := step_after { s with history := [], responses := [] } s.history s.responses
  cases hst.symm.trans hu
  rwa [hpast] at hafter

end Sys2Proof.Machine

/-! ## Obligations 32, 40 and 41: the register commands on a device that answers freely (41_regaccess.md R81, R85;
70_reset_and_hazards.md R116) -/

namespace Sys2Proof.Machine

/-- Settles O32: the read and its two answers; an ill-formed or busy `exec` is as for every instruction. -/
theorem regRmwReadStep : Obligations.RegRmwReadStep := by
  unfold Obligations.RegRmwReadStep
  intro s n ra wa mask value
  refine ⟨fun h hi => ⟨fun b hb => ?_, fun k hk => ?_⟩, fun h hi => exec_malformed h hi, fun h => exec_busy h _⟩
  · rw [exec_regRmw_ok h ra wa (of_decide_eq_true hi) hb]
    simp [State.setAcc, State.record]
  · rw [exec_regRmw_err h ra wa (of_decide_eq_true hi) hk, State.transaction_respond_eq]

/-! ### The answers a device can give -/

theorem State.dropAnswer_cons (s : State) (a : BusAnswer) :
    State.dropAnswer { s with answers := a :: s.answers } = s := rfl

/-- Every sequence of at most five bytes is the first bytes of some answer. -/
theorem exists_answer {bytes : List Byte} (h : bytes.length ≤ 5) :
    ∃ b : Vector Byte 5, b.toList.take bytes.length = bytes := by
  have hlen : (bytes ++ List.replicate (5 - bytes.length) 0).length = 5 := by
    rw [List.length_append, List.length_replicate]
    omega
  exact ⟨⟨(bytes ++ List.replicate (5 - bytes.length) 0).toArray, hlen⟩, List.take_left⟩

/-- Settles O40: the answer is the bytes asked for, padded to five, or the error. -/
theorem readAnswersAreUnconstrained : Obligations.ReadAnswersAreUnconstrained := by
  unfold Obligations.ReadAnswersAreUnconstrained
  intro s n ra h hn
  refine ⟨fun bytes hlen => ?_, fun k => ⟨.err k, ?_⟩⟩
  · subst hlen
    obtain ⟨b, hb⟩ := exists_answer hn.2
    refine ⟨.ok b, ?_⟩
    rw [exec_regRead_ok (s := { s with answers := _ :: s.answers }) h hn ra rfl, State.transaction_respond_eq,
      State.dropAnswer_cons, hb]
  · rw [exec_regRead_err (s := { s with answers := _ :: s.answers }) h hn ra rfl, State.transaction_respond_eq,
      State.dropAnswer_cons]

/-! ### `REG_RMW` commands one after the other -/

/-- A `REG_RMW` whose two transactions succeed: its read and its write in the history, the unit ready for the next
command, the device's further answers still to come. -/
theorem run_regRmw_answered {s : State} {n : Nat} {ra wa : Byte} {mask value : List Byte} {cs : List Command}
    {b w : Vector Byte 5} {more : List BusAnswer} (hi : (Instr.regRmw n ra wa mask value).WellFormed) (h : s.Ready)
    (hp : s.port = encode (.regRmw n ra wa mask value) :: cs) (ha : s.answers = .ok b :: .ok w :: more) :
    ∃ t : State, Sys2Proof.core.run 2 s = .next t ∧ t.Ready ∧ t.port = cs ∧ t.answers = more ∧
      t.history = s.history ++
        [.rd ra n (.ok (b.toList.take n)), .wr wa (merge (b.toList.take n) mask value) .ok] := by
  have hdrop := State.dropAnswer_of_cons ha
  refine ⟨_, run_regRmw_ok hi (h.takes hp) h.2 (State.nextAnswer_of_cons ha), ⟨?_, ?_⟩, ?_, ?_, ?_⟩
  · simpa using h.1
  · simpa using h.2
  · simp [hp]
  · rw [hdrop]
    rfl
  · rw [hdrop]
    rfl

/-- Settles O41: the two commands run one after the other, and the second merge keeps the stale bytes outside its
mask. -/
theorem staleReadbackLosesTheFirstUpdate : Obligations.StaleReadbackLosesTheFirstUpdate := by
  unfold Obligations.StaleReadbackLosesTheFirstUpdate
  intro s n ra wa m v m' v' b w w' rest more hi hi' hidle hline hp ha old
  obtain ⟨t, hrun, hready, hport, hanswers, hhistory⟩ := run_regRmw_answered hi ⟨hidle, hline⟩ hp ha
  obtain ⟨u, hrun', -, -, -, hhistory'⟩ := run_regRmw_answered hi' hready hport hanswers
  refine ⟨u, (run_add hrun 2).trans hrun', ?_, fun i hin => ?_⟩
  · rw [hhistory', hhistory, List.append_assoc]
    rfl
  · obtain ⟨hn, hm', hv'⟩ : LegalWidth n ∧ m'.length = n ∧ v'.length = n := of_decide_eq_true hi'
    have hold : old.length = n := length_answer_take b hn
    rw [merge_getD (hm'.trans hold.symm) (hv'.trans hold.symm) (hold.symm ▸ hin), mergeByte_and_not_mask]

end Sys2Proof.Machine

/-! ## Obligations 38, 39 and 50: what a merge writes (41_regaccess.md section 4; 30_encoding.md R64; 20_memory.md
R32) -/

namespace Sys2Proof.Machine

/-! ### The merge of one byte -/

section MergeByte

variable (old mask value : Byte)

theorem mergeByte_and_mask : mergeByte old mask value &&& mask = value &&& mask := by
  apply BitVec.eq_of_getLsbD_eq
  intro j hj
  rw [BitVec.getLsbD_and, BitVec.getLsbD_and, mergeByte_getLsbD _ _ _ hj]
  cases mask.getLsbD j <;> simp

theorem mergeByte_zero_mask : mergeByte old 0#8 value = old := by
  rw [mergeByte, BitVec.and_zero, BitVec.or_zero, BitVec.not_zero, BitVec.and_allOnes]

theorem mergeByte_full_mask : mergeByte old 0xFF#8 value = value := by
  have hones : (0xFF#8 : Byte) = BitVec.allOnes 8 := rfl
  rw [mergeByte, hones, BitVec.not_allOnes, BitVec.and_zero, BitVec.zero_or, BitVec.and_allOnes]

theorem mergeByte_mergeByte_same : mergeByte (mergeByte old mask value) mask value = mergeByte old mask value := by
  rw [mergeByte, mergeByte_and_not_mask, mergeByte]

theorem mergeByte_and_value : mergeByte old mask (value &&& mask) = mergeByte old mask value := by
  rw [mergeByte, mergeByte, BitVec.and_assoc, BitVec.and_self]

theorem mergeByte_comm_of_disjoint {mask mask' : Byte} (h : mask &&& mask' = 0#8) (value' : Byte) :
    mergeByte (mergeByte old mask value) mask' value' = mergeByte (mergeByte old mask' value') mask value := by
  apply BitVec.eq_of_getLsbD_eq
  intro j hj
  have hbit : (mask.getLsbD j && mask'.getLsbD j) = false := by
    rw [← BitVec.getLsbD_and, h, BitVec.getLsbD_zero]
  rw [mergeByte_getLsbD _ _ _ hj, mergeByte_getLsbD _ _ _ hj, mergeByte_getLsbD _ _ _ hj,
    mergeByte_getLsbD _ _ _ hj]
  revert hbit
  cases mask.getLsbD j <;> cases mask'.getLsbD j <;> simp

/-- `REG_SET`'s byte. -/
theorem mergeByte_self_value : mergeByte old mask mask = old ||| mask := by
  apply BitVec.eq_of_getLsbD_eq
  intro j hj
  rw [BitVec.getLsbD_or, mergeByte_getLsbD _ _ _ hj]
  cases mask.getLsbD j <;> simp

/-- `REG_CLEAR`'s byte. -/
theorem mergeByte_zero_value : mergeByte old mask 0#8 = old &&& ~~~mask := by
  simp [mergeByte]

end MergeByte

/-! ### Sequences byte by byte -/

theorem eq_of_getD {a b : List Byte} (hlen : a.length = b.length) (h : ∀ i < b.length, a.getD i 0 = b.getD i 0) :
    a = b := by
  refine List.ext_getElem hlen fun i ha hb => ?_
  have := h i hb
  rwa [List.getD_eq_getElem _ _ ha, List.getD_eq_getElem _ _ hb] at this

theorem getD_zipWith (f : Byte → Byte → Byte) {a b : List Byte} {i : Nat} (ha : i < a.length) (hb : i < b.length) :
    (List.zipWith f a b).getD i 0 = f (a.getD i 0) (b.getD i 0) := by
  have hab : i < (List.zipWith f a b).length := by
    rw [List.length_zipWith]
    omega
  rw [List.getD_eq_getElem _ _ ha, List.getD_eq_getElem _ _ hb, List.getD_eq_getElem _ _ hab, List.getElem_zipWith]

/-- A sequence is a merge of three others of its length when each of its bytes is the merge of theirs. -/
theorem merge_eq_of_getD {old mask value c : List Byte} (hm : mask.length = old.length)
    (hv : value.length = old.length) (hc : c.length = old.length)
    (h : ∀ i < old.length, mergeByte (old.getD i 0) (mask.getD i 0) (value.getD i 0) = c.getD i 0) :
    merge old mask value = c := by
  refine eq_of_getD ((length_merge hm hv).trans hc.symm) fun i hi => ?_
  rw [merge_getD hm hv (hc ▸ hi), h i (hc ▸ hi)]

/-- Settles O38: each law of the sequences is the law of their bytes. -/
theorem mergeInsertsInsideMask : Obligations.MergeInsertsInsideMask := by
  unfold Obligations.MergeInsertsInsideMask
  rintro n old mask value rfl hm hv
  have hmerge := length_merge hm hv
  refine ⟨fun i hi => ?_, ?_, ?_, ?_, ?_, fun mask' value' hm' hv' hdisjoint => ?_⟩
  · rw [merge_getD hm hv hi, mergeByte_and_mask]
  · refine merge_eq_of_getD List.length_replicate hv rfl fun i hi => ?_
    rw [List.getD_replicate _ hi]
    exact mergeByte_zero_mask _ _
  · refine merge_eq_of_getD List.length_replicate hv hv fun i hi => ?_
    rw [List.getD_replicate _ hi]
    exact mergeByte_full_mask _ _
  · refine merge_eq_of_getD (hm.trans hmerge.symm) (hv.trans hmerge.symm) rfl fun i hi => ?_
    rw [merge_getD hm hv (hmerge ▸ hi), mergeByte_mergeByte_same]
  · have hzip : (List.zipWith (fun v m => v &&& m) value mask).length = old.length := by
      rw [List.length_zipWith, hv, hm, Nat.min_self]
    refine merge_eq_of_getD hm hv (length_merge hm hzip) fun i hi => ?_
    rw [merge_getD hm hzip hi, getD_zipWith _ (hv.symm ▸ hi) (hm.symm ▸ hi), mergeByte_and_value]
  · have hmerge' := length_merge hm' hv'
    refine merge_eq_of_getD (hm'.trans hmerge.symm) (hv'.trans hmerge.symm) ?_ fun i hi => ?_
    · rw [length_merge (hm.trans hmerge'.symm) (hv.trans hmerge'.symm), hmerge, hmerge']
    · replace hi : i < old.length := hmerge ▸ hi
      rw [merge_getD hm hv hi, merge_getD (hm.trans hmerge'.symm) (hv.trans hmerge'.symm) (hmerge'.symm ▸ hi),
        merge_getD hm' hv' hi, mergeByte_comm_of_disjoint _ _ (hdisjoint i hi)]

/-! ### The pseudo-commands -/

/-- The bits of a field's mask byte are those from `lsb` up to `lsb + fw`. -/
theorem fieldMaskByte_getLsbD (lsb fw : Nat) {b : Nat} (hb : b < 8) :
    (fieldMaskByte lsb fw).getLsbD b = decide (lsb ≤ b ∧ b < lsb + fw) := by
  rw [fieldMaskByte, BitVec.getLsbD_ofNat, Nat.testBit_shiftLeft, Nat.testBit_two_pow_sub_one, decide_eq_true hb,
    Bool.true_and, Bool.decide_and]
  by_cases h : lsb ≤ b
  · simp [h]
    omega
  · simp [h]

/-- Inside the field, the bits of its value byte are the low bits of `v`. -/
theorem fieldValueByte_getLsbD (lsb fw v : Nat) {b : Nat} (hb : b < 8) (h : lsb ≤ b ∧ b < lsb + fw) :
    (fieldValueByte lsb fw v).getLsbD b = v.testBit (b - lsb) := by
  rw [fieldValueByte, BitVec.getLsbD_and, fieldMaskByte_getLsbD lsb fw hb, decide_eq_true h, Bool.and_true,
    BitVec.getLsbD_ofNat, Nat.testBit_shiftLeft, decide_eq_true hb, decide_eq_true h.1, Bool.true_and, Bool.true_and]

theorem getD_oneByte {n j : Nat} (i : Nat) (b : Byte) (h : j < n) :
    (oneByte n i b).getD j 0 = if j = i then b else 0 := by
  simp [oneByte, h]

theorem length_oneByte (n i : Nat) (b : Byte) : (oneByte n i b).length = n := by
  simp [oneByte]

/-- What `REG_SET` writes: the mask is also the value. -/
theorem merge_self_value {old mask : List Byte} (hm : mask.length = old.length) :
    merge old mask mask = List.zipWith (fun o x => o ||| x) old mask := by
  refine merge_eq_of_getD hm hm ?_ fun i hi => ?_
  · rw [List.length_zipWith, hm, Nat.min_self]
  · rw [getD_zipWith _ hi (hm.symm ▸ hi), mergeByte_self_value]

/-- What `REG_CLEAR` writes: the value is zero. -/
theorem merge_zero_value {old mask : List Byte} (hm : mask.length = old.length) :
    merge old mask (List.replicate old.length 0) = List.zipWith (fun o x => o &&& ~~~x) old mask := by
  refine merge_eq_of_getD hm List.length_replicate ?_ fun i hi => ?_
  · rw [List.length_zipWith, hm, Nat.min_self]
  · rw [getD_zipWith _ hi (hm.symm ▸ hi), List.getD_replicate _ hi]
    exact mergeByte_zero_value _ _

/-- What `REG_FIELD` writes: the field's bits from `v`, and every other bit as it was. -/
theorem merge_field_getLsbD (old : List Byte) (i lsb fw v : Nat) {j b : Nat} (hj : j < old.length) (hb : b < 8) :
    ((merge old (oneByte old.length i (fieldMaskByte lsb fw)) (oneByte old.length i (fieldValueByte lsb fw v))).getD
        j 0).getLsbD b =
      if j = i ∧ lsb ≤ b ∧ b < lsb + fw then v.testBit (b - lsb) else (old.getD j 0).getLsbD b := by
  rw [merge_getD (length_oneByte ..) (length_oneByte ..) hj, mergeByte_getLsbD _ _ _ hb, getD_oneByte _ _ hj,
    getD_oneByte _ _ hj]
  by_cases hji : j = i
  · rw [if_pos hji, if_pos hji, fieldMaskByte_getLsbD lsb fw hb]
    by_cases hin : lsb ≤ b ∧ b < lsb + fw
    · rw [if_pos (decide_eq_true hin), if_pos ⟨hji, hin⟩, fieldValueByte_getLsbD lsb fw v hb hin]
    · simp [hin]
  · simp [hji]

/-- Settles O39: the three expansions are `REG_RMW` of the register's width, and their merges are the lemmas above. -/
theorem pseudoCommandsWriteExactlyTheirBits : Obligations.PseudoCommandsWriteExactlyTheirBits := by
  unfold Obligations.PseudoCommandsWriteExactlyTheirBits
  rintro n ra wa old hn rfl
  refine ⟨fun m hm => ⟨decide_eq_true ⟨hn, hm, hm⟩, decide_eq_true ⟨hn, hm, List.length_replicate⟩,
    ⟨m, rfl, merge_self_value hm⟩, ⟨_, rfl, merge_zero_value hm⟩⟩, fun i lsb fw v _ => ⟨?_, _, _, rfl, ?_⟩⟩
  · exact decide_eq_true ⟨hn, length_oneByte .., length_oneByte ..⟩
  · exact fun j hj b hb => merge_field_getLsbD old i lsb fw v hj hb

/-! ### The exposure trigger -/

/-- Settles O50: the mask keeps the first byte read and takes the others from the value. -/
theorem exposurePayloadIsBigEndian : Obligations.ExposurePayloadIsBigEndian := by
  unfold Obligations.ExposurePayloadIsBigEndian
  refine ⟨fun p d e => ⟨rfl, rfl⟩, by decide, fun s d e b hidle hb => ?_⟩
  have hf : LegalWidth 5 ∧ [0x00#8, 0xFF, 0xFF, 0xFF, 0xFF].length = 5 ∧ (exposurePayload 0x00 d e).length = 5 :=
    ⟨by decide, rfl, rfl⟩
  refine ⟨_, exec_regRmw_ok hidle 0xC2 0xC1 hf hb, ?_⟩
  -- The five bytes read, one by one: the first is kept, and each other one is replaced whole.
  match b with
  | ⟨⟨[b0, b1, b2, b3, b4]⟩, _⟩ =>
    simp [exposurePayload, countBytes, mergeByte_zero_mask, mergeByte_full_mask]

end Sys2Proof.Machine

/-! ## Obligations 49 and 51: the device's modes and registers (20_memory.md R28, R31) -/

namespace Sys2Proof.Machine

/-- Settles O49: the three codes, and the last branch for every other byte. -/
theorem modeCodes : Obligations.ModeCodes := by
  unfold Obligations.ModeCodes
  refine ⟨rfl, rfl, rfl, fun b hstandby htest hprint => ?_⟩
  rw [DeviceMode.ofByte, if_neg hstandby, if_neg htest, if_neg hprint]

/-- Settles O51: the tables by evaluation, and the four commands of the set-up one by one. -/
theorem deviceRegisterMap : Obligations.DeviceRegisterMap := by
  unfold Obligations.DeviceRegisterMap
  refine ⟨rfl, fun _ => rfl, fun m i hi => ?_⟩
  simp only [setupSequence, List.mem_cons, List.not_mem_nil, or_false] at hi
  obtain rfl | rfl | rfl | rfl := hi <;> exact ⟨rfl, rfl⟩

end Sys2Proof.Machine
